-- ==== Sys2Proof/Word.lean ====
section
/-! DEFINITION. The word types of the block (spec/00_scope.md R5, R6: REG_W = 32, CHAR_W = 8, every value unsigned). -/

namespace Sys2Proof

/-- One cell of IN or OUT: a byte, a character code or an index byte (R5: CHAR_W = 8; 92_eei_decisions.md D3). -/
abbrev Byte := BitVec 8

/-- One register slot (R5: REG_W = 32; 10_state.md R23). -/
abbrev Word := BitVec 32

/-- The 5-bit value 0 to 31 of a symbol (R12, "Index"). -/
abbrev Index := BitVec 5

/-- The ceiling division `cdiv` of R8, for a divisor above 0. -/
def cdiv (a b : Nat) : Nat := (a + b - 1) / b

end Sys2Proof
end

