-- ==== Sys2Proof/Syntax.lean ====
section
/-! DEFINITION. The block's instructions: the four commands of spec/30_encoding.md R72, one constructor per row of
spec/opcode_table.json. -/

namespace Sys2Proof

/-- A command with its IGN bit (30_encoding.md R70 to R72). Its other operands, the contents of IN_LEN and IN, are not in
the command word (R74). IGN stays in IDX2SYM and SYM2IDX, where it has no effect (R71), because CMD holds it and a read
of CMD returns it (10_state.md R24). DESIGN CHOICE (log entry 14): these are the eight mnemonics of R77; R79 and Z4 of
93_implementation_defined.md call the words 0x2 and 0x6 one command, and 0x3 and 0x7. -/
inductive Instr where
  /-- ENCODE, OP = 0b00 (41_encode.md R125); `ign` is the source's ignorePartialSymbol. -/
  | encode (ign : Bool)
  /-- DECODE, OP = 0b01 (42_decode.md R145); `ign` is the source's ignorePartialByte. -/
  | decode (ign : Bool)
  /-- IDX2SYM, OP = 0b10 (40_alphabet.md R107). -/
  | idx2sym (ign : Bool)
  /-- SYM2IDX, OP = 0b11 (40_alphabet.md R108). -/
  | sym2idx (ign : Bool)
deriving DecidableEq, Repr

end Sys2Proof
end

