-- ==== Sys2Proof/Decode.lean ====
section
/-! DEFINITION. The command word: its decoder and its encoder (spec/30_encoding.md R70 to R73, R76, R79). A command word
is one 32-bit value written whole to REG slot 0, so its layout has no byte order (20_memory.md R52, R55). No command word
is illegal (R73): the decoder is total and refuses none. -/

namespace Sys2Proof

/-- OP, bits [1:0] of a command word (R70). -/
def opField (w : Word) : BitVec 2 := w.extractLsb' 0 2

/-- IGN, bit [2] of a command word (R70, R71). -/
def ignField (w : Word) : Bool := w.getLsbD 2

/-- `decode_cmd` (R79): OP selects the command (R72), IGN is its flag (R71), bits [31:3] are ignored (R73). -/
def decodeCmd (w : Word) : Instr :=
  match (opField w).getLsbD 1, (opField w).getLsbD 0 with
  | false, false => .encode (ignField w)
  | false, true => .decode (ignField w)
  | true, false => .idx2sym (ignField w)
  | true, true => .sym2idx (ignField w)

/-- OP of a command (R72). -/
def Instr.op : Instr → BitVec 2
  | .encode _ => 0b00#2
  | .decode _ => 0b01#2
  | .idx2sym _ => 0b10#2
  | .sym2idx _ => 0b11#2

/-- IGN of a command (R71). -/
def Instr.ign : Instr → Bool
  | .encode ign => ign
  | .decode ign => ign
  | .idx2sym ign => ign
  | .sym2idx ign => ign

/-- The word a host writes for a command, with bits [31:3] zero (R70, and R77's table of the eight mnemonics). -/
def encodeCmd (i : Instr) : Word := (BitVec.ofBool i.ign ++ i.op).setWidth 32

/-- The instruction that the decoder reads from an instruction whose low `nbits` bits are `w`, every higher bit being 0.
Every command word is 32 bits long (R76), so more than 32 bits are no command word. -/
def decodeTableWord (nbits w : Nat) : Option Instr :=
  if nbits ≤ 32 then some (decodeCmd (BitVec.ofNat 32 (w % 2 ^ nbits))) else none

end Sys2Proof
end

