-- ==== Sys2Proof/Config.lean ====
section
/-! DEFINITION. What an implementation or its platform fixes, and the free values (spec/00_scope.md R5, R10;
spec/93_implementation_defined.md sections 1 and 4). -/

namespace Sys2Proof

/-- The block's three host-addressable spaces (20_memory.md R50). -/
inductive Space where
  | reg
  | inBuf
  | outBuf
deriving DecidableEq, Repr

/-- The OPEN depth parameters (00_scope.md R5; 92_eei_decisions.md D8). A state carries its own, so that a statement about
every state holds for every legal choice (log entry 1). -/
structure Params where
  /-- `IN_DEPTH`: the number of cells of IN. -/
  inDepth : Nat
  /-- `OUT_DEPTH`: the number of cells of OUT. -/
  outDepth : Nat
deriving DecidableEq, Repr

/-- DESIGN CHOICE (unsafe, log entry 1): the depths of the state after reset, those that 95_test_vectors.md section 2.5
takes for its vectors and programs. -/
def Config.resetParams : Params := { inDepth := 16, outDepth := 26 }

/-- FREE VALUE (log entry 2): the `n`-th draw of `any8()` (00_scope.md R10). It has no body: nothing can be proved of a
value of it, so no two draws need agree. -/
opaque Config.any8 : Nat → Byte

/-- FREE VALUE (log entry 5): what a 32-bit OUT_LEN holds after a result of 2^32 units or more, which no rule states. -/
opaque Config.any32 : Nat → Word

/-- FREE VALUE (log entry 10): the 8-bit code of a quoted character from U+0080 on. The spec gives US-ASCII codes only
(40_alphabet.md R101) and lets no other be assumed (91_not_in_source.md N5.1). -/
opaque Config.otherCode : Char → Byte

/-- FREE VALUE (log entry 6): the platform's choice of an address for each unit, the units numbered by
`Config.unitNumber`. It has no body; that distinct numbers have distinct addresses is all that 20_memory.md R51 says of it.
(A permutation: every injective placement of the finitely many units that exist is part of one.) -/
opaque Config.placement : Nat ≃ Nat

/-- A numbering of the (space, index) pairs, each number naming one pair. -/
def Config.unitNumber : Space → Nat → Nat
  | .reg, i => 3 * i
  | .inBuf, i => 3 * i + 1
  | .outBuf, i => 3 * i + 2

/-- `BLOCK_BASE` (20_memory.md R51): the system address at which the platform places a unit of the block. -/
def Config.blockBase (sp : Space) (i : Nat) : Nat := Config.placement (Config.unitNumber sp i)

end Sys2Proof
end

