-- ==== Sys2Proof/Machine/HostSyntax.lean ====
section
/-! DEFINITION. The host's side: the host actions of spec/30_encoding.md R75 and the statements of its program notation
(R77). These are the input of the block, not its instructions. -/

namespace Sys2Proof.Machine

/-- The two agents (10_state.md R20). -/
inductive Agent where
  | host
  | engine
deriving DecidableEq, Repr

/-- The seven transactions of R75. -/
inductive HostAction where
  | regWrite (n : Nat) (v : Word)
  | regRead (n : Nat)
  | inWrite (i : Nat) (v : Byte)
  | inRead (i : Nat)
  | outRead (j : Nat)
  | outWrite (j : Nat) (v : Byte)
  | reset
deriving DecidableEq, Repr

/-- Whether an access reads, or writes a value. -/
inductive Dir where
  | read
  | write (v : Word)
deriving DecidableEq, Repr

/-- An access as a platform bus might present it to the block: how many bits wide a unit it moves, how many units, and
which way. 20_memory.md R52 gives a meaning to one shape for each space and refuses the others. -/
structure Access where
  /-- Bits moved at a time. -/
  width : Nat
  /-- Units moved: more than one is a burst. -/
  count : Nat
  dir : Dir
deriving DecidableEq, Repr

/-- The value a statement writes: an immediate or a host variable (R77 `imm`, `tN`). -/
inductive Source where
  | imm (v : Word)
  | var (t : Fin 8)
deriving DecidableEq, Repr

/-- A statement of a host program (R77), labels resolved to positions in the program. -/
inductive HostStmt where
  /-- `WRR slot, imm` or `WRR slot, tN`: `RegWrite(slot, value)`. -/
  | wrr (slot : Nat) (src : Source)
  /-- `RDR tN, slot`: `tN <- RegRead(slot)`. -/
  | rdr (t : Fin 8) (slot : Nat)
  /-- `WRI idx, imm8` or `WRI idx, tN`: `InWrite(idx, value[7:0])`. -/
  | wri (idx : Nat) (src : Source)
  /-- `RDI tN, idx`: `tN <- zext_32(InRead(idx))`. -/
  | rdi (t : Fin 8) (idx : Nat)
  /-- `RDO tN, idx`: `tN <- zext_32(OutRead(idx))`. -/
  | rdo (t : Fin 8) (idx : Nat)
  /-- `RST`: `Reset`. -/
  | rst
  /-- `BIT1 tN, k, label`: go to `label` if bit `k` of `tN` is 1, else fall through. -/
  | bit1 (t : Fin 8) (k : Fin 32) (label : Nat)
  /-- `HALT`: the host program ends. -/
  | halt
  /-- The transaction `OutWrite(idx, value[7:0])` of R75, for which R77 has no statement (log entry 7). -/
  | wro (idx : Nat) (src : Source)
  /-- An access of any shape at the block's ports: to unit `index` of a space, starting `offset` bytes into it
  (20_memory.md R52, R53). A value read goes to `tN` (log entry 7). -/
  | port (t : Fin 8) (sp : Space) (index offset : Nat) (acc : Access)
  /-- An access of any shape at a system address, where the platform has placed the units by BLOCK_BASE (20_memory.md
  R51). A value read goes to `tN` (log entry 7). -/
  | sys (t : Fin 8) (addr : Nat) (acc : Access)
deriving DecidableEq, Repr

end Sys2Proof.Machine
end

