-- ==== Sys2Proof/Machine/State.lean ====
section
/-! DEFINITION. The state of the block and its host as plain data (spec/10_state.md R37, spec/30_encoding.md R77), the
reasons a step can stop, and the state after reset (spec/70_reset_and_hazards.md R220). -/

namespace Sys2Proof.Machine

/-- A buffer of cells: the cells that hold a known value, as (index, value) pairs with indices strictly rising
(`Memory.wf`). An unlisted cell is `unknown` (10_state.md R37): a read of it is a free value (log entry 2). -/
abbrev Memory := List Host.Cell

/-- The canonical form: indices strictly rising. An unlisted cell is unknown, so no entry can equal one. -/
abbrev Memory.wf (m : Memory) : Prop := m.Pairwise fun x y => x.1 < y.1

/-- The faults of the machine: there are none. The block has no trap and no stuck state: "`fault` and `stuck` are not
used" (93_implementation_defined.md, model treatments; 60_exceptions.md R205). Its two errors are values of STATUS. -/
inductive Fault where
deriving DecidableEq, Repr

/-- The reasons the model gives a step no meaning. Every one but the first is a `refuse` of the spec
(93_implementation_defined.md F1 to F4), raised by a host access; all are safe (00_scope.md R14: they err toward
unprovable). No command ends in one. -/
inductive Refusal where
  /-- Raised by `exec` for a command that has no meaning yet; safe. No arm raises it. -/
  | notModelled (mnemonic : String)
  /-- Raised by a REG access to a slot above 7 (F1; 20_memory.md R50); safe. -/
  | noSuchSlot
  /-- Raised by an IN or OUT access at or beyond the depth (F2; 20_memory.md R50); safe. -/
  | noSuchCell
  /-- Raised by an access that is not 32 bits wide to REG, or not 8 bits wide to IN or OUT (F3; 20_memory.md R52); safe. -/
  | accessWidth
  /-- Raised by an access that moves any number of units but one (F3; 20_memory.md R52); safe. -/
  | burst
  /-- Raised by an access that does not start at its unit's first byte (F4; 20_memory.md R53); safe. -/
  | insideUnit
  /-- Raised by an access at a system address where the platform has placed the start of no unit (20_memory.md R50 "No
  host access reaches anything else", R53); safe. -/
  | noUnitAtAddress
deriving DecidableEq, Repr

/-- The errors that end a command (60_exceptions.md R200). They carry nothing (R201). -/
inductive CmdError where
  /-- InvalidSymbol: an input code that is no symbol. -/
  | invalidSymbol
  /-- LengthError: IN_LEN above IN_DEPTH. -/
  | lengthError
deriving DecidableEq, Repr

/-- The state: the record of 10_state.md R37, the host that runs the notation of 30_encoding.md R77, and the model's own
fields (`params`, `draws`, `schedule`). SYM_ROM and INV_TABLE are constants, not fields (R37). -/
structure State where
  /-- IN_DEPTH and OUT_DEPTH; nothing writes them (log entry 1). -/
  params : Params
  /-- CMD.OP (R24). -/
  cmdOp : BitVec 2
  /-- CMD.IGN (R24). -/
  cmdIgn : Bool
  /-- IN_LEN (R25). -/
  inLen : Word
  /-- STATUS.BUSY (R26), which is the engine's phase (R33). -/
  busy : Bool
  /-- STATUS.DONE (R26). -/
  done : Bool
  /-- STATUS.ERR_SYM (R26). -/
  errSym : Bool
  /-- STATUS.ERR_LEN (R26). -/
  errLen : Bool
  /-- OUT_LEN (R27). -/
  outLen : Word
  /-- IN (R31). -/
  inBuf : Memory
  /-- OUT (R32). -/
  outBuf : Memory
  /-- The number of free values drawn so far (log entry 2). -/
  draws : Nat
  /-- The host's program (30_encoding.md R77; log entry 3). -/
  prog : List HostStmt
  /-- The position of the host's next statement in `prog`. -/
  hostPc : Nat
  /-- The host's variables t0 to t7 (30_encoding.md R77). -/
  vars : Vector Word 8
  /-- Whether the host has executed HALT. -/
  halted : Bool
  /-- Whose turn each coming step is, the next one first (log entry 4). -/
  schedule : List Agent
deriving DecidableEq, Repr

/-- The machine right after reset with the given depths (70_reset_and_hazards.md R220, 10_state.md R24 to R33): every
register 0, the engine idle, every cell of IN and OUT unknown. The host has no program yet and its variables are 0
(95_test_vectors.md section 3). -/
def State.resetOf (p : Params) : State where
  params := p
  cmdOp := 0
  cmdIgn := false
  inLen := 0
  busy := false
  done := false
  errSym := false
  errLen := false
  outLen := 0
  inBuf := []
  outBuf := []
  draws := 0
  prog := []
  hostPc := 0
  vars := Vector.replicate 8 0
  halted := false
  schedule := []

/-- The machine right after reset, at the depths of log entry 1. -/
def State.reset : State := State.resetOf Config.resetParams

end Sys2Proof.Machine
end

