-- ==== Sys2Proof/Machine/Flags.lean ====
section
/-! DEFINITION. The flags: the four STATUS bits, the block's only ones (spec/10_state.md R26, R34), and the register words
that CMD and STATUS read as (spec/44_host_interface.md R185). -/

namespace Sys2Proof.Machine

/-- `STATUS <- …` with each of the four bits given: the one way any flag is written (R34). -/
def State.setStatus (busy done errSym errLen : Bool) (s : State) : State :=
  { s with busy := busy, done := done, errSym := errSym, errLen := errLen }

/-- `STATUS <- BUSY`: a command has started (44_host_interface.md R180). -/
def State.statusStarted (s : State) : State := s.setStatus true false false false

/-- `STATUS <- DONE`: a command has succeeded (R182). -/
def State.statusDone (s : State) : State := s.setStatus false true false false

/-- `STATUS <- DONE | ERR_SYM` or `STATUS <- DONE | ERR_LEN`: a command has ended with an error (R182, R183; the two values of
60_exceptions.md R200). -/
def State.statusError (e : CmdError) (s : State) : State :=
  s.setStatus false true (e == .invalidSymbol) (e == .lengthError)

/-- What a read of CMD returns: `zext_32(IGN ++ OP)` (10_state.md R24, R185). -/
def State.cmdWord (s : State) : Word := (BitVec.ofBool s.cmdIgn ++ s.cmdOp).setWidth 32

/-- What a read of STATUS returns: `zext_32(ERR_LEN ++ ERR_SYM ++ DONE ++ BUSY)` (R26, R185). -/
def State.statusWord (s : State) : Word :=
  (BitVec.ofBool s.errLen ++ BitVec.ofBool s.errSym ++ BitVec.ofBool s.done ++ BitVec.ofBool s.busy).setWidth 32

/-- The values that STATUS can take (R26, legal combinations): idle after reset, busy, done, done with InvalidSymbol, done
with a length error. -/
def State.statusLegal (s : State) : Bool := [0#32, 1#32, 2#32, 6#32, 10#32].contains s.statusWord

end Sys2Proof.Machine
end

