-- ==== Sys2Proof/Machine/Ops.lean ====
section
/-! DEFINITION. The shared operations: reading and writing cells, free values, the start of a command, the end of one with
a result or with an error, and the reset action (spec/44_host_interface.md R180, R182, R183; spec/60_exceptions.md R205;
spec/70_reset_and_hazards.md R220). -/

namespace Sys2Proof.Machine

/-- The known value of a cell, or none where the cell is unknown (10_state.md R37). -/
def Memory.read : Memory → Nat → Option Byte
  | [], _ => none
  | (i, b) :: m, a => if a = i then some b else Memory.read m a

/-- One cell written; the indices stay strictly rising. -/
def Memory.write : Memory → Nat → Byte → Memory
  | [], a, v => [(a, v)]
  | (i, b) :: m, a, v =>
    if a < i then (a, v) :: (i, b) :: m
    else if a = i then (a, v) :: m
    else (i, b) :: Memory.write m a v

/-- `for j in 0 .. |r|−1: MemWrite(OUT, j, 1, r[j])` from index `a` on (20_memory.md R61). -/
def Memory.writeFrom (m : Memory) (a : Nat) : List Byte → Memory
  | [] => m
  | v :: r => Memory.writeFrom (Memory.write m a v) (a + 1) r

/-- `any8()` (00_scope.md R10): a fresh free byte, and the state after the draw (log entry 2). -/
def State.draw (s : State) : Byte × State := (Config.any8 s.draws, { s with draws := s.draws + 1 })

/-- A read of a cell by the host: its value, or a free value where it is unknown (10_state.md R37; U1, U2 of
93_implementation_defined.md). -/
def State.readCell (m : Memory) (i : Nat) (s : State) : Byte × State :=
  match Memory.read m i with
  | some b => (b, s)
  | none => s.draw

/-- The start of a command, the effect of a CMD write that is accepted (R180): OP and IGN are stored, STATUS becomes BUSY,
OUT_LEN becomes 0; IN and IN_LEN are not changed. -/
def State.startCommand (w : Word) (s : State) : State :=
  { s with cmdOp := opField w, cmdIgn := ignField w, outLen := 0 }.statusStarted

/-- The end of a command with an error (R182, R183, 60_exceptions.md R205): the error's STATUS, OUT_LEN = 0, no OUT cell
written, and nothing else recorded (60_exceptions.md R201). -/
def State.endInError (e : CmdError) (s : State) : State := { s with outLen := 0 }.statusError e

/-- OUT_LEN after a result of `n` units (R182). A result of 2^32 units or more does not fit the register, and no rule says
what it then holds: a free value (log entry 5). -/
def State.setOutLen (n : Nat) (s : State) : State :=
  if n < 2 ^ 32 then { s with outLen := BitVec.ofNat 32 n }
  else { s with outLen := Config.any32 s.draws, draws := s.draws + 1 }

/-- The end of a command with a result (R182): OUT cells 0 to |r|−1 are written, the others keep their values, OUT_LEN is
|r|, STATUS is DONE. -/
def State.endWithResult (r : List Byte) (s : State) : State :=
  ({ s with outBuf := Memory.writeFrom s.outBuf 0 r }.setOutLen r.length).statusDone

/-- The action `Reset` (70_reset_and_hazards.md R220): the registers are 0, the engine is idle, every cell of IN and OUT is
unknown. A running command is abandoned. The host and its program are no part of the block and stay. -/
def State.resetBlock (s : State) : State :=
  { s with cmdOp := 0, cmdIgn := false, inLen := 0, outLen := 0, inBuf := [], outBuf := [] }.setStatus
    false false false false

end Sys2Proof.Machine
end

