-- ==== Sys2Proof/Machine/Operands.lean ====
section
/-! DEFINITION. The operands of a command, all read at its completion step (spec/30_encoding.md R74, spec/20_memory.md R61):
the length IN_LEN and the cells of IN below it. (The third, IGN, stands in the command.) -/

namespace Sys2Proof.Machine

/-- `n` cells of a buffer from index `i` on, each read once, in rising order. An unknown cell gives a free value of its own
(70_reset_and_hazards.md R225; U1), the first of them draw number `d`. The second component counts the draws on. -/
def cellsFrom (m : Memory) : Nat → Nat → Nat → List Byte × Nat
  | _, 0, d => ([], d)
  | i, n + 1, d =>
    match Memory.read m i with
    | some b => (b :: (cellsFrom m (i + 1) n d).1, (cellsFrom m (i + 1) n d).2)
    | none => (Config.any8 d :: (cellsFrom m (i + 1) n (d + 1)).1, (cellsFrom m (i + 1) n (d + 1)).2)

/-- `len = IN_LEN[31:0]`, an unsigned count (R74). -/
def State.len (s : State) : Nat := s.inLen.toNat

/-- The input sequence `x = [MemRead(IN, i, 1) for i in 0 to len − 1]` (R74). -/
def State.input (s : State) : List Byte := (cellsFrom s.inBuf 0 s.len s.draws).1

/-- The state after the input sequence has been read: only the count of free values has moved. -/
def State.afterInput (s : State) : State := { s with draws := (cellsFrom s.inBuf 0 s.len s.draws).2 }

end Sys2Proof.Machine
end

