-- ==== Sys2Proof/Machine/Completion.lean ====
section
/-! DEFINITION. The completion step, the engine's one event, shared by the four commands (spec/44_host_interface.md R182,
R183). -/

namespace Sys2Proof.Machine

/-- The completion of a command whose result function is `f` (none is InvalidSymbol): the length check comes first and
reads no cell (R183); then the operands are read once, and the command ends with a result or with InvalidSymbol (R182). -/
def State.complete (f : List Byte → Option (List Byte)) (s : State) : State :=
  if s.params.inDepth < s.len then s.endInError .lengthError
  else
    match f s.input with
    | none => s.afterInput.endInError .invalidSymbol
    | some r => s.afterInput.endWithResult r

end Sys2Proof.Machine
end

