-- ==== Sys2Proof/Machine/Alphabet.lean ====
section
/-! DEFINITION. The alphabet table and the inverse index generator (spec/40_alphabet.md R100 to R106, spec/10_state.md R29,
R30). The character codes are those of R101. -/

namespace Sys2Proof.Machine

/-- The 32 character codes of SYM_ROM, index 0 first: "0123456789acdefghjkmnpqrstuvwxyz" (R100, table). -/
def symTable : Vector Byte 32 :=
  #v[0x30, 0x31, 0x32, 0x33, 0x34, 0x35, 0x36, 0x37, 0x38, 0x39, 0x61, 0x63, 0x64, 0x65, 0x66, 0x67,
     0x68, 0x6A, 0x6B, 0x6D, 0x6E, 0x70, 0x71, 0x72, 0x73, 0x74, 0x75, 0x76, 0x77, 0x78, 0x79, 0x7A]

/-- `SYM_ROM[i]` (R100). -/
def symRom (i : Index) : Byte := symTable[i.toNat]

/-- An entry of INV_TABLE: 6 bits (10_state.md R30). -/
structure InvEntry where
  valid : Bool
  index : Index
deriving DecidableEq, Repr

/-- `INV_TABLE[c]`, generated from SYM_ROM (R102): the index whose symbol is `c`, or invalid with index 0. -/
def invTable (c : Byte) : InvEntry :=
  match (List.range 32).find? fun i => symRom (BitVec.ofNat 5 i) == c with
  | some i => { valid := true, index := BitVec.ofNat 5 i }
  | none => { valid := false, index := 0 }

/-- The same table as range comparisons (R103), the form the source gives. -/
def invTableByRanges (c : Byte) : InvEntry :=
  let n := c.toNat
  if 0x30 ≤ n ∧ n ≤ 0x39 then { valid := true, index := BitVec.ofNat 5 (n - 0x30) }
  else if n = 0x61 then { valid := true, index := 10 }
  else if 0x63 ≤ n ∧ n ≤ 0x68 then { valid := true, index := BitVec.ofNat 5 (n - 0x58) }
  else if 0x6A ≤ n ∧ n ≤ 0x6B then { valid := true, index := BitVec.ofNat 5 (n - 0x59) }
  else if 0x6D ≤ n ∧ n ≤ 0x6E then { valid := true, index := BitVec.ofNat 5 (n - 0x5A) }
  else if 0x70 ≤ n ∧ n ≤ 0x7A then { valid := true, index := BitVec.ofNat 5 (n - 0x5B) }
  else { valid := false, index := 0 }

/-- Whether a code is one of the 32 symbols (R102, R106). -/
def isSymbol (c : Byte) : Bool := (invTable c).valid

/-- `SymbolToIndex` (R104): the index of a symbol; none is `raise InvalidSymbol()`, which carries nothing (R201 of
60_exceptions.md). -/
def symbolToIndex (c : Byte) : Option Index :=
  if (invTable c).valid then some (invTable c).index else none

/-- `SymbolToIndex` of every code of a sequence, or InvalidSymbol if any of them is invalid (R108, R143 of 42_decode.md). -/
def symbolsToIndices : List Byte → Option (List Index)
  | [] => some []
  | c :: cs =>
    match symbolToIndex c, symbolsToIndices cs with
    | some i, some is => some (i :: is)
    | _, _ => none

end Sys2Proof.Machine
end

