-- ==== Sys2Proof/Machine/Bitstream.lean ====
section
/-! DEFINITION. The numbers and bit streams of the codec (spec/00_scope.md R9, spec/20_memory.md R54): a sequence of w-bit
values as one big-endian number, and a number cut into w-bit digits, most significant first. -/

namespace Sys2Proof.Machine

/-- The big-endian value of a sequence of `w`-bit values: `Σ d[i] · 2^(w·(|d|−1−i))` (R9). -/
def bigEndian {w : Nat} : List (BitVec w) → Nat
  | [] => 0
  | d :: ds => d.toNat * 2 ^ (w * ds.length) + bigEndian ds

/-- `val8` of R9: the big-endian value of a byte sequence. -/
def val8 (b : List Byte) : Nat := bigEndian b

/-- `val5` of R9: the base-32 value of an index sequence. -/
def val5 (d : List Index) : Nat := bigEndian d

/-- `digits(V, w, L)` of R9: the lowest `w·L` bits of `V` in `L` fields of `w` bits, most significant first. Element `j` is
`(V >> (w·(L−1−j))) & (2^w − 1)`. -/
def digits (V w L : Nat) : List (BitVec w) :=
  (List.range L).map fun j => BitVec.ofNat w (V >>> (w * (L - 1 - j)))

/-- The bits of a sequence, most significant bit of its first element first (R54). -/
def bitStream {w : Nat} (ds : List (BitVec w)) : List Bool :=
  ds.flatMap fun d => (List.range w).map d.getMsbD

end Sys2Proof.Machine
end

