-- ==== Sys2Proof/Machine/Decoder.lean ====
section
/-! DEFINITION. The decoder: the pure function `Decode`, symbols to bytes (spec/42_decode.md R140 to R144). -/

namespace Sys2Proof.Machine

/-- `B`: the full output length of `m` input symbols (R140). -/
def fullBytes (m : Nat) : Nat := cdiv (5 * m) 8

/-- `L`: the output length of `m` input symbols (R140): one less than `B` when the flag drops the partial byte. -/
def decodedLength (m : Nat) (ign : Bool) : Nat :=
  if ign = true ∧ m % 8 ≠ 0 then fullBytes m - 1 else fullBytes m

/-- The bytes of the full output of an index sequence, before any is dropped (R141). -/
def fullOutput (d : List Index) : List Byte := digits (val5 d) 8 (fullBytes d.length)

/-- The output of an index sequence: the full output, less its first byte when the flag drops the partial one (R142). -/
def decodeIndices (d : List Index) (ign : Bool) : List Byte :=
  if ign = true ∧ d.length % 8 ≠ 0 then (fullOutput d).tail else fullOutput d

/-- `Decode(s, ign)` (R144): none, which is InvalidSymbol, if any code is invalid, whatever the flag (R143). -/
def decodeSymbols (s : List Byte) (ign : Bool) : Option (List Byte) :=
  (symbolsToIndices s).map fun d => decodeIndices d ign

end Sys2Proof.Machine
end

