-- ==== Sys2Proof/Machine/Encoder.lean ====
section
/-! DEFINITION. The encoder: the pure function `Encode`, bytes to symbols (spec/41_encode.md R120 to R124). -/

namespace Sys2Proof.Machine

/-- `S`: the full output length of `n` input bytes (R120). -/
def fullSymbols (n : Nat) : Nat := cdiv (8 * n) 5

/-- `L`: the output length of `n` input bytes (R120): one less than `S` when the flag drops the partial symbol. -/
def encodedLength (n : Nat) (ign : Bool) : Nat :=
  if ign = true ∧ n % 5 ≠ 0 then fullSymbols n - 1 else fullSymbols n

/-- The indices of the full output, before any symbol is dropped (R121): the value of the bytes in `S` base-32 digits. -/
def fullIndices (b : List Byte) : List Index := digits (val8 b) 5 (fullSymbols b.length)

/-- `Encode(b, ign)` (R123): the full output, less its first symbol when the flag drops the partial one (R122). -/
def encodeBytes (b : List Byte) (ign : Bool) : List Byte :=
  let full := (fullIndices b).map symRom
  if ign = true ∧ b.length % 5 ≠ 0 then full.tail else full

end Sys2Proof.Machine
end

