-- ==== Sys2Proof/Machine/Codec.lean ====
section
/-! DEFINITION. The meanings of ENCODE and DECODE: the completion step of each (spec/41_encode.md R125, spec/42_decode.md
R145). The start that precedes it is `State.startCommand`. -/

namespace Sys2Proof.Machine

/-- ENCODE (R125): the result is `Encode(x, ign)`, which cannot fail (R124). -/
def execEncode (ign : Bool) (s : State) : Host.Outcome State Fault Refusal :=
  .next (s.complete fun x => some (encodeBytes x ign))

/-- DECODE (R145): the result is `Decode(x, ign)`, or InvalidSymbol. -/
def execDecode (ign : Bool) (s : State) : Host.Outcome State Fault Refusal :=
  .next (s.complete fun x => decodeSymbols x ign)

end Sys2Proof.Machine
end

