-- ==== Sys2Proof/Machine/Lookup.lean ====
section
/-! DEFINITION. The meanings of IDX2SYM and SYM2IDX: the completion step of each (spec/40_alphabet.md R107, R108). IGN has
no effect on either (spec/30_encoding.md R71). -/

namespace Sys2Proof.Machine

/-- `IDX2SYM(x)` (R107): the symbol of bits [4:0] of each cell; bits [7:5] are ignored. -/
def indicesToSymbols (x : List Byte) : List Byte := x.map fun b => symRom (b.extractLsb' 0 5)

/-- `SYM2IDX(x)` (R108): the index of each code, widened with zeros, or InvalidSymbol if any code is invalid. -/
def symbolsToIndexBytes (x : List Byte) : Option (List Byte) :=
  (symbolsToIndices x).map fun d => d.map fun i => i.setWidth 8

/-- IDX2SYM (R107); it cannot fail. -/
def execIdx2sym (_ign : Bool) (s : State) : Host.Outcome State Fault Refusal :=
  .next (s.complete fun x => some (indicesToSymbols x))

/-- SYM2IDX (R108). -/
def execSym2idx (_ign : Bool) (s : State) : Host.Outcome State Fault Refusal :=
  .next (s.complete symbolsToIndexBytes)

end Sys2Proof.Machine
end

