-- ==== Sys2Proof/Machine/Dispatch.lean ====
section
/-! DEFINITION. The meaning of every command: its completion step (spec/44_host_interface.md R182). -/

namespace Sys2Proof.Machine

def exec (i : Instr) (s : State) : Host.Outcome State Fault Refusal :=
  match i with
  | .encode ign => Sys2Proof.Machine.execEncode ign s
  | .decode ign => Sys2Proof.Machine.execDecode ign s
  | .idx2sym ign => Sys2Proof.Machine.execIdx2sym ign s
  | .sym2idx ign => Sys2Proof.Machine.execSym2idx ign s

end Sys2Proof.Machine
end

