-- ==== Sys2Proof/Machine/Units.lean ====
section
/-! DEFINITION. The units a host access can name, the one shape of access each admits, and where the platform places them
(spec/20_memory.md R50 to R53). -/

namespace Sys2Proof.Machine

/-- The indices of a space: slots 0 to 7, or the cells below the depth (20_memory.md R50). -/
def spaceSize (p : Params) : Space → Nat
  | .reg => 8
  | .inBuf => p.inDepth
  | .outBuf => p.outDepth

/-- The one width an access to a space may have (20_memory.md R52). -/
def unitWidth : Space → Nat
  | .reg => 32
  | .inBuf => 8
  | .outBuf => 8

/-- An access has the one shape that its space admits (20_memory.md R52). -/
def Access.fits (acc : Access) (sp : Space) : Bool := acc.count == 1 && acc.width == unitWidth sp

/-- Every unit of the block: each (space, index) pair of 20_memory.md R50. -/
def allUnits (p : Params) : List (Space × Nat) :=
  (List.range 8).map (Space.reg, ·) ++ (List.range p.inDepth).map (Space.inBuf, ·)
    ++ (List.range p.outDepth).map (Space.outBuf, ·)

/-- The unit that the platform has placed at a system address (20_memory.md R51), if any. -/
def unitAt (p : Params) (addr : Nat) : Option (Space × Nat) :=
  (allUnits p).find? fun u => Config.blockBase u.1 u.2 == addr

end Sys2Proof.Machine
end

