-- ==== Sys2Proof/Machine/HostPort.lean ====
section
/-! DEFINITION. The host actions (spec/30_encoding.md R75; spec/44_host_interface.md R180, R181, R184 to R188;
spec/70_reset_and_hazards.md R220), and the accesses that are none of them (spec/20_memory.md R50 to R53). -/

namespace Sys2Proof.Machine

/-- What a host action does: the state after it, the value a read returned with the state after it, or a refusal. -/
inductive Reply where
  | done (s : State)
  | value (v : Word) (s : State)
  | refused (r : Refusal)
deriving DecidableEq, Repr

/-- The state after a host action that is not refused. -/
def Reply.after : Reply → Option State
  | .done s => some s
  | .value _ s => some s
  | .refused _ => none

/-- `RegWrite(n, v)`. CMD and IN_LEN are locked while busy (R181); an accepted CMD write starts a command (R180); IN_LEN
stores all 32 bits (R184); slots 2 to 7 change nothing (R184, 10_state.md R26 to R28); no other slot exists (F1). -/
def regWrite (n : Nat) (v : Word) (s : State) : Reply :=
  match n with
  | 0 => .done (if s.busy then s else s.startCommand v)
  | 1 => .done (if s.busy then s else { s with inLen := v })
  | n => if n < 8 then .done s else .refused .noSuchSlot

/-- `RegRead(n)` (R185): the same at any time, with no side effect. -/
def regRead (n : Nat) (s : State) : Reply :=
  match n with
  | 0 => .value s.cmdWord s
  | 1 => .value s.inLen s
  | 2 => .value s.statusWord s
  | 3 => .value s.outLen s
  | n => if n < 8 then .value 0 s else .refused .noSuchSlot

/-- `InWrite(i, v)` (R186): the cell is stored unless the block is busy (R181). No cell at or beyond the depth exists (F2). -/
def inWrite (i : Nat) (v : Byte) (s : State) : Reply :=
  if i < s.params.inDepth then .done (if s.busy then s else { s with inBuf := Memory.write s.inBuf i v })
  else .refused .noSuchCell

/-- `InRead(i)` (R186): the cell, at any time, or `any8()` where it is unknown (U1). -/
def inRead (i : Nat) (s : State) : Reply :=
  if i < s.params.inDepth then .value ((s.readCell s.inBuf i).1.setWidth 32) (s.readCell s.inBuf i).2
  else .refused .noSuchCell

/-- `OutRead(j)` (R187): `any8()` while busy, whatever the cell holds (U3); else the cell, or `any8()` where it is unknown
(U2). -/
def outRead (j : Nat) (s : State) : Reply :=
  if j < s.params.outDepth then
    if s.busy then .value (s.draw.1.setWidth 32) s.draw.2
    else .value ((s.readCell s.outBuf j).1.setWidth 32) (s.readCell s.outBuf j).2
  else .refused .noSuchCell

/-- `OutWrite(j, v)` changes nothing (R188). -/
def outWrite (j : Nat) (_v : Byte) (s : State) : Reply :=
  if j < s.params.outDepth then .done s else .refused .noSuchCell

/-- Any host action: each is one indivisible event (R57 of 20_memory.md). -/
def hostAction (a : HostAction) (s : State) : Reply :=
  match a with
  | .regWrite n v => regWrite n v s
  | .regRead n => regRead n s
  | .inWrite i v => inWrite i v s
  | .inRead i => inRead i s
  | .outRead j => outRead j s
  | .outWrite j v => outWrite j v s
  | .reset => .done s.resetBlock

/-- The host action that an access of the admitted shape is: a read or a write of one slot or one cell (20_memory.md R52). -/
def unitAction (sp : Space) (index : Nat) : Dir → HostAction
  | .read => match sp with
    | .reg => .regRead index
    | .inBuf => .inRead index
    | .outBuf => .outRead index
  | .write v => match sp with
    | .reg => .regWrite index v
    | .inBuf => .inWrite index (v.setWidth 8)
    | .outBuf => .outWrite index (v.setWidth 8)

/-- An access of any shape at the ports: a burst, another width, or a start inside the unit is refused (F3, F4); else it is
the host action on the unit, which refuses a unit that does not exist (F1, F2). The form of the access is the model's DESIGN
CHOICE; that an access of no unit, a narrower or wider one than R52 lists, and a start inside a cell are refused too is
DEDUCED from 92_eei_decisions.md D15 (log entry 7). -/
def portAccess (sp : Space) (index offset : Nat) (acc : Access) (s : State) : Reply :=
  if acc.count ≠ 1 then .refused .burst
  else if acc.width ≠ unitWidth sp then .refused .accessWidth
  else if offset ≠ 0 then .refused .insideUnit
  else hostAction (unitAction sp index acc.dir) s

/-- An access at a system address (20_memory.md R51): to the unit the platform has placed there; an address at which no unit
starts reaches nothing (R50, R53). -/
def systemAccess (addr : Nat) (acc : Access) (s : State) : Reply :=
  match unitAt s.params addr with
  | some u => portAccess u.1 u.2 0 acc s
  | none => .refused .noUnitAtAddress

end Sys2Proof.Machine
end

