-- ==== Sys2Proof/Machine/HostProgram.lean ====
section
/-! DEFINITION. The host as an agent: one statement of its program a turn (spec/30_encoding.md R77). -/

namespace Sys2Proof.Machine

/-- The value of a source: an immediate or a host variable (R77). -/
def Source.value (src : Source) (s : State) : Word :=
  match src with
  | .imm v => v
  | .var t => s.vars[t]

/-- `value[7:0]` (R77, `WRI`). DESIGN CHOICE (log entry 10): an immediate above 255, which R77 does not admit, is cut likewise. -/
def Source.byte (src : Source) (s : State) : Byte := (src.value s).extractLsb' 0 8

/-- The host's next statement is at position `pc`. -/
def State.goto (pc : Nat) (s : State) : State := { s with hostPc := pc }

/-- `tN <- v`. -/
def State.setVar (t : Fin 8) (v : Word) (s : State) : State := { s with vars := s.vars.set t v }

/-- The end of a statement that performs a host action: a value read goes to `tN`, and the host falls through to the next
statement; a refused action ends the step (00_scope.md R14). -/
def endStmt (t : Fin 8) (r : Reply) : Host.Outcome State Fault Refusal :=
  match r with
  | .done s => .next (s.goto (s.hostPc + 1))
  | .value v s => .next ((s.setVar t v).goto (s.hostPc + 1))
  | .refused r => .refused r

/-- The effect of a statement (R77, table). A statement whose action returns nothing names no variable: `endStmt` then
writes none. -/
def hostStmt (st : HostStmt) (s : State) : Host.Outcome State Fault Refusal :=
  match st with
  | .wrr slot src => endStmt 0 (hostAction (.regWrite slot (src.value s)) s)
  | .rdr t slot => endStmt t (hostAction (.regRead slot) s)
  | .wri idx src => endStmt 0 (hostAction (.inWrite idx (src.byte s)) s)
  | .rdi t idx => endStmt t (hostAction (.inRead idx) s)
  | .rdo t idx => endStmt t (hostAction (.outRead idx) s)
  | .rst => endStmt 0 (hostAction .reset s)
  | .bit1 t k label => .next (s.goto (if (s.vars[t]).getLsbD k then label else s.hostPc + 1))
  | .halt => .next { s with halted := true }
  | .wro idx src => endStmt 0 (hostAction (.outWrite idx (src.byte s)) s)
  | .port t sp index offset acc => endStmt t (portAccess sp index offset acc s)
  | .sys t addr acc => endStmt t (systemAccess addr acc s)

/-- The statement the host is at, unless its program has ended: by HALT, or by running past its last statement (log
entry 3). -/
def State.hostNext (s : State) : Option HostStmt := if s.halted then none else s.prog[s.hostPc]?

/-- The host's turn: its next statement, or nothing once its program has ended. -/
def hostTurn (s : State) : Host.Outcome State Fault Refusal :=
  match s.hostNext with
  | some st => hostStmt st s
  | none => .next s

end Sys2Proof.Machine
end

