-- ==== Sys2Proof/Machine/Turns.lean ====
section
/-! DEFINITION. Whose turn a step is (spec/44_host_interface.md R189, spec/93_implementation_defined.md U7), and the
engine's fetch of the command it carries out (R182). -/

namespace Sys2Proof.Machine

/-- The agent that moves next and the turns after it. When the schedule is used up, a busy engine moves next (the weak
fairness of R189), and otherwise the host (log entry 4). -/
def State.nextTurn (s : State) : Agent × List Agent :=
  match s.schedule with
  | a :: rest => (a, rest)
  | [] => (if s.busy then .engine else .host, [])

/-- The state with the next turn taken from its schedule. -/
def State.takeTurn (s : State) : State := { s with schedule := s.nextTurn.2 }

/-- The command being carried out: `decode_cmd` of the OP and IGN held in CMD (10_state.md R33; 30_encoding.md R79). -/
def State.command (s : State) : Instr := decodeCmd s.cmdWord

/-- A command word placed where the engine fetches its next command: started by R180, the engine's turn next. -/
def State.withCommand (s : State) (w : Word) : State :=
  { s.startCommand w with schedule := .engine :: s.schedule }

end Sys2Proof.Machine
end

