-- ==== Sys2Proof/Machine/Step.lean ====
section
/-! DEFINITION. One step of the machine: one event of the host or the engine (spec/20_memory.md R57, R58). -/

namespace Sys2Proof.Machine

/-- One turn. On the engine's, the completion step, enabled exactly while BUSY (spec/44_host_interface.md R182): `exec` of
the command held in CMD; an idle engine does nothing. On the host's, the next statement of its program. -/
def step (s : State) : Host.Outcome State Fault Refusal :=
  match s.nextTurn.1 with
  | .engine => if s.busy then exec s.command s.takeTurn else .next s.takeTurn
  | .host => hostTurn s.takeTurn

/-- `s` with the command whose low `nbits` bits are `w` about to be carried out: a host has written the word to CMD (R180)
and the engine moves next (log entry 3). -/
def State.withFetchWord (s : State) (nbits w : Nat) : State := s.withCommand (BitVec.ofNat 32 (w % 2 ^ nbits))

end Sys2Proof.Machine
end

