-- ==== Sys2Proof/Machine/Datapath.lean ====
section
/-! DEFINITION. The reference group datapaths (spec/41_encode.md R127, spec/42_decode.md R147): groups of 40 bits taken
backwards from the end, the output written from its last position backwards. They give the results of R123 and R144 by
another route; no command is defined by them. -/

namespace Sys2Proof.Machine

/-- The eight shift and mask formulas of a full group, `s0` first (R127). -/
def groupSymbols (b0 b1 b2 b3 b4 : Byte) : List Index :=
  [ (b0 >>> 3).setWidth 5,
    (((b0 &&& 0x07#8) <<< 2) ||| (b1 >>> 6)).setWidth 5,
    ((b1 >>> 1) &&& 0x1F#8).setWidth 5,
    (((b1 &&& 0x01#8) <<< 4) ||| (b2 >>> 4)).setWidth 5,
    (((b2 &&& 0x0F#8) <<< 1) ||| (b3 >>> 7)).setWidth 5,
    ((b3 >>> 2) &&& 0x1F#8).setWidth 5,
    (((b3 &&& 0x03#8) <<< 3) ||| (b4 >>> 5)).setWidth 5,
    (b4 &&& 0x1F#8).setWidth 5 ]

/-- The five inverse formulas of a full group, `b0` first (R147). -/
def groupBytes (s0 s1 s2 s3 s4 s5 s6 s7 : Index) : List Byte :=
  let e : Index → Byte := fun s => s.setWidth 8
  [ (e s0 <<< 3) ||| (e s1 >>> 2),
    ((e s1 &&& 0x03#8) <<< 6) ||| (e s2 <<< 1) ||| (e s3 >>> 4),
    ((e s3 &&& 0x0F#8) <<< 4) ||| (e s4 >>> 1),
    ((e s4 &&& 0x01#8) <<< 7) ||| (e s5 <<< 2) ||| (e s6 >>> 3),
    ((e s6 &&& 0x07#8) <<< 5) ||| e s7 ]

/-- The indices of a byte sequence given last byte first, itself last index first: each group of five bytes by
`groupSymbols`, the missing leading bytes of the first group as zero. -/
def groupsBackward : List Byte → List Index
  | b4 :: b3 :: b2 :: b1 :: b0 :: rest => (groupSymbols b0 b1 b2 b3 b4).reverse ++ groupsBackward rest
  | [b4, b3, b2, b1] => (groupSymbols 0 b1 b2 b3 b4).reverse
  | [b4, b3, b2] => (groupSymbols 0 0 b2 b3 b4).reverse
  | [b4, b3] => (groupSymbols 0 0 0 b3 b4).reverse
  | [b4] => (groupSymbols 0 0 0 0 b4).reverse
  | [] => []

/-- The bytes of an index sequence given last index first, itself last byte first: each group of eight indices by
`groupBytes`, the missing leading indices of the first group as zero. -/
def octetsBackward : List Index → List Byte
  | s7 :: s6 :: s5 :: s4 :: s3 :: s2 :: s1 :: s0 :: rest =>
    (groupBytes s0 s1 s2 s3 s4 s5 s6 s7).reverse ++ octetsBackward rest
  | [s7, s6, s5, s4, s3, s2, s1] => (groupBytes 0 s1 s2 s3 s4 s5 s6 s7).reverse
  | [s7, s6, s5, s4, s3, s2] => (groupBytes 0 0 s2 s3 s4 s5 s6 s7).reverse
  | [s7, s6, s5, s4, s3] => (groupBytes 0 0 0 s3 s4 s5 s6 s7).reverse
  | [s7, s6, s5, s4] => (groupBytes 0 0 0 0 s4 s5 s6 s7).reverse
  | [s7, s6, s5] => (groupBytes 0 0 0 0 0 s5 s6 s7).reverse
  | [s7, s6] => (groupBytes 0 0 0 0 0 0 s6 s7).reverse
  | [s7] => (groupBytes 0 0 0 0 0 0 0 s7).reverse
  | [] => []

/-- The encoder's group datapath (R127): it "stops once `L` symbols have been written". -/
def encodeByGroups (b : List Byte) (ign : Bool) : List Byte :=
  (((groupsBackward b.reverse).take (encodedLength b.length ign)).reverse).map symRom

/-- The decoder's group datapath (R147): it stops once `L` bytes have been written. -/
def decodeByGroups (s : List Byte) (ign : Bool) : Option (List Byte) :=
  (symbolsToIndices s).map fun d => ((octetsBackward d.reverse).take (decodedLength d.length ign)).reverse

end Sys2Proof.Machine
end

