-- ==== Sys2Proof/Machine/HostAsm.lean ====
section
/-! DEFINITION. The written form of a host program and its expansion (spec/30_encoding.md R77, R78): labels, the command
mnemonics, and the pseudo-instructions WAIT, LOADIN and RUN. -/

namespace Sys2Proof.Machine

/-- A line of a host program. A label is named by a number. -/
inductive Line where
  /-- `name:` -/
  | label (name : Nat)
  /-- A statement of R77 other than BIT1. -/
  | stmt (st : HostStmt)
  /-- `BIT1 tN, k, name` -/
  | bit1 (t : Fin 8) (k : Fin 32) (name : Nat)
  /-- A command mnemonic, one write of CMD (R77, second table). -/
  | cmd (i : Instr)
  /-- `WAIT` -/
  | wait
  /-- `LOADIN v0, v1, …`. DESIGN CHOICE (log entry 13): the values are 8-bit immediates. R78 does not say whether one may be
  a variable tN, as the WRI it expands to allows; a program that wants that writes the WRI statements. -/
  | loadin (vs : List Byte)
  /-- `LOADIN "s"` -/
  | loadText (cs : List Char)
  /-- `RUN m` -/
  | run (i : Instr)
deriving DecidableEq, Repr

/-- The code of a character written in quotes (00_scope.md R11, 30_encoding.md R77, R78): its US-ASCII code (40_alphabet.md
R101). DESIGN CHOICE (log entry 10): a character from U+0080 on, those up to U+00FF among them, has no code in the spec; its
code is a free value. -/
def charCode (c : Char) : Byte := if c.toNat < 0x80 then BitVec.ofNat 8 c.toNat else Config.otherCode c

/-- A command mnemonic: `WRR CMD, word` (R77). -/
def cmdStmt (i : Instr) : HostStmt := .wrr 0 (.imm (encodeCmd i))

/-- `WAIT` at position `at_` (R78): its fresh label is that position. -/
def waitStmts (at_ : Nat) : List HostStmt := [.rdr 7 2, .bit1 7 0 at_]

/-- `LOADIN` (R78): the cells from 0 on, then IN_LEN. DESIGN CHOICE (log entry 13): of 2^32 values or more, a number that no
32-bit immediate holds and of which R78 says nothing, IN_LEN is written with the number modulo 2^32. -/
def loadinStmts (vs : List Byte) : List HostStmt :=
  vs.mapIdx (fun i v => HostStmt.wri i (.imm (v.setWidth 32))) ++ [.wrr 1 (.imm (BitVec.ofNat 32 vs.length))]

/-- The number of statements a line expands to. -/
def Line.size : Line → Nat
  | .label _ => 0
  | .stmt _ => 1
  | .bit1 _ _ _ => 1
  | .cmd _ => 1
  | .wait => 2
  | .loadin vs => vs.length + 1
  | .loadText cs => cs.length + 1
  | .run _ => 3

/-- The position of the label `name` among lines that begin at position `at_` (R77). DESIGN CHOICE (log entry 12): where
several lines define that label, of which R77 says nothing, the first one counts and the program is not refused. -/
def labelPos (name : Nat) : Nat → List Line → Option Nat
  | _, [] => none
  | at_, .label n :: ls => if n = name then some at_ else labelPos name at_ ls
  | at_, l :: ls => labelPos name (at_ + l.size) ls

/-- The statements a line at position `at_` of the program `all` expands to (R77, R78); none if it names no label. -/
def Line.expand (all : List Line) (at_ : Nat) : Line → Option (List HostStmt)
  | .label _ => some []
  | .stmt st => some [st]
  | .bit1 t k name => (labelPos name 0 all).map fun pos => [.bit1 t k pos]
  | .cmd i => some [cmdStmt i]
  | .wait => some (waitStmts at_)
  | .loadin vs => some (loadinStmts vs)
  | .loadText cs => some (loadinStmts (cs.map charCode))
  | .run i => some (cmdStmt i :: waitStmts (at_ + 1))

/-- The statements of the lines from position `at_` on. -/
def expandFrom (all : List Line) : Nat → List Line → Option (List HostStmt)
  | _, [] => some []
  | at_, l :: ls =>
    match l.expand all at_, expandFrom all (at_ + l.size) ls with
    | some sts, some rest => some (sts ++ rest)
    | _, _ => none

/-- The program that a list of lines is. -/
def assemble (ls : List Line) : Option (List HostStmt) := expandFrom ls 0 ls

/-- A state whose host is about to run a program: it stands at the first statement with t0 to t7 at 0 (95_test_vectors.md
section 3). A program is placed so from outside the machine (log entry 3). -/
def State.withProgram (s : State) (prog : List HostStmt) : State :=
  { s with prog := prog, hostPc := 0, vars := Vector.replicate 8 0, halted := false }

end Sys2Proof.Machine
end

