-- ==== Sys2Proof/WellFormed.lean ====
section
/-! DEFINITION. The well-formedness checks: of the depth parameters (spec/00_scope.md R5), of a command, and of a host
program (the operand ranges of spec/30_encoding.md R75 and R77, the access shapes of spec/20_memory.md R50 to R53). -/

namespace Sys2Proof

/-- The constraints of 00_scope.md R5 on the OPEN depths: IN_DEPTH ≥ 1 and OUT_DEPTH ≥ cdiv(8·IN_DEPTH, 5). -/
def Params.legal (p : Params) : Bool := 1 ≤ p.inDepth && cdiv (8 * p.inDepth) 5 ≤ p.outDepth

/-- A command is well formed. Every value of OP and IGN is legal (30_encoding.md R71, R72), so every term is. -/
def Instr.wellFormed : Instr → Bool
  | .encode _ => true
  | .decode _ => true
  | .idx2sym _ => true
  | .sym2idx _ => true

/-- A command word is written plainly: its reserved bits [31:3], which the block ignores (30_encoding.md R73), are 0. -/
def plainWord (w : Word) : Bool := w.extractLsb' 3 29 == 0

namespace Machine

/-- A statement names only units that exist, by accesses of the right shape, and a label of its program: the operand
ranges of 30_encoding.md R75. A program of such statements is never refused. DESIGN CHOICE (log entry 15): a BIT1 whose label
stands after the last statement, of which R77 says nothing, is not well formed (`label < progLength`), although `assemble`
resolves it and the program ends there as log entry 3 says. An immediate of WRI above 255 is well formed (log entry 10). -/
def HostStmt.wellFormed (p : Params) (progLength : Nat) : HostStmt → Bool
  | .wrr slot _ => slot < 8
  | .rdr _ slot => slot < 8
  | .wri idx _ => idx < p.inDepth
  | .rdi _ idx => idx < p.inDepth
  | .rdo _ idx => idx < p.outDepth
  | .rst => true
  | .bit1 _ _ label => label < progLength
  | .halt => true
  | .wro idx _ => idx < p.outDepth
  | .port _ sp index offset acc => index < spaceSize p sp && offset == 0 && acc.fits sp
  | .sys _ addr acc => match unitAt p addr with
    | some u => acc.fits u.1
    | none => false

/-- A host program is well formed if each of its statements is. -/
def programWellFormed (p : Params) (prog : List HostStmt) : Bool := prog.all (HostStmt.wellFormed p prog.length)

end Machine

end Sys2Proof
end

