-- ==== Sys2Proof/Safety.lean ====
section
/-! DEFINITION. What counts as a good state of the block, in the terms the statements use: the consequences that the spec
draws from its own rules (spec/10_state.md R26, R27, R31, R32; spec/00_scope.md R5). -/

namespace Sys2Proof.Machine

/-- Every listed cell of a buffer is one of its cells: its index is below the depth. -/
def Memory.within (m : Memory) (depth : Nat) : Bool := m.all fun c => c.1 < depth

/-- The bits of STATUS and OUT_LEN agree with each other: STATUS takes only its legal values (10_state.md R26), and OUT_LEN
is 0 while busy and after an error (R27). -/
def State.registersConsistent (s : State) : Prop :=
  s.statusLegal = true ∧ s.outLen.toNat ≤ s.params.outDepth
    ∧ (s.busy = true ∨ s.errSym = true ∨ s.errLen = true → s.outLen = 0)

/-- Every cell of OUT below OUT_LEN holds a known value: the result of the last command (44_host_interface.md R187). -/
def State.resultKnown (s : State) : Prop :=
  ∀ j, j < s.outLen.toNat → (Memory.read s.outBuf j).isSome = true

/-- The invariant of the block: legal depths, buffers in canonical form with no cell beyond their depth, consistent
registers, and a known result. -/
structure State.Inv (s : State) : Prop where
  depths : s.params.legal = true
  inWf : Memory.wf s.inBuf
  outWf : Memory.wf s.outBuf
  inWithin : Memory.within s.inBuf s.params.inDepth = true
  outWithin : Memory.within s.outBuf s.params.outDepth = true
  registers : s.registersConsistent
  result : s.resultKnown

/-- What a command keeps of the block: CMD, IN_LEN and IN (44_host_interface.md R190). -/
def State.keepsInputs (s t : State) : Prop :=
  t.cmdOp = s.cmdOp ∧ t.cmdIgn = s.cmdIgn ∧ t.inLen = s.inLen ∧ t.inBuf = s.inBuf

/-- What only the host or nobody writes: the host's program, position and variables, the turns to come, the depths. -/
def State.keepsHost (s t : State) : Prop :=
  t.params = s.params ∧ t.prog = s.prog ∧ t.hostPc = s.hostPc ∧ t.vars = s.vars ∧ t.halted = s.halted
    ∧ t.schedule = s.schedule

/-- Every cell that the next command reads has been written since reset (70_reset_and_hazards.md R222, R225). -/
def State.inputKnown (s : State) : Prop := ∀ i, i < s.len → (Memory.read s.inBuf i).isSome = true

/-- The longest input of which every command's result fits the 32 bits of OUT_LEN: `cdiv(8·2684354559, 5) = 2^32 − 1`. -/
def State.resultFits (s : State) : Prop := s.len ≤ 2684354559

/-- The program has no RST statement: the host resets the block nowhere in it. -/
def neverResets (prog : List HostStmt) : Bool := prog.all fun st => st != .rst

/-- `n` steps of the machine, stopping at the first that answers no next state. -/
def runSteps : Nat → State → Host.Outcome State Fault Refusal
  | 0, s => .next s
  | n + 1, s =>
    match step s with
    | .next t => runSteps n t
    | .fault r => .fault r
    | .refused r => .refused r

end Sys2Proof.Machine
end

