-- ==== Sys2Proof/Certificates/Slice0/Obligations.lean ====
section
/-! DEFINITION. The statements for the provers. Each docstring names the rule of spec/ that it formalises. -/

open Sys2Proof Sys2Proof.Machine

/-! ## The command word -/

/-- 30_encoding.md R70 to R73, R77, R79: `decode_cmd`, total on all 2^32 words, said of the word as a number. R79 decodes OP 2
and 3 to IDX2SYM and SYM2IDX with no flag, because IGN has no effect there (R71); that the decoded instruction keeps bit 2 for
them too, one instruction for each of the eight mnemonics of R77, is the model's DESIGN CHOICE (log entry 14). -/
def Obligations.CommandWordDecodesByItsFields : Prop :=
  ∀ w : Word, decodeCmd w =
    match w.toNat % 4 with
    | 0 => .encode (w.toNat / 4 % 2 == 1)
    | 1 => .decode (w.toNat / 4 % 2 == 1)
    | 2 => .idx2sym (w.toNat / 4 % 2 == 1)
    | _ => .sym2idx (w.toNat / 4 % 2 == 1)

/-- 30_encoding.md R70 to R73: decoding a command's word gives the command, encoding what a word decodes to gives the word
with its reserved bits cleared, and two words decode alike exactly if they agree in bits [2:0]. That words which decode alike
agree in bit 2 also for IDX2SYM and SYM2IDX is the model's form of the eight mnemonics of R77 (log entry 14): R79 decodes 0x2
and 0x6 both to IDX2SYM, and R73 gives only that words which agree in bits [2:0] are one command. -/
def Obligations.DecodeAndEncodeAgree : Prop :=
  (∀ i : Instr, i.wellFormed = true → decodeCmd (encodeCmd i) = i) ∧
  (∀ w : Word, encodeCmd (decodeCmd w) = w &&& 7#32) ∧
  (∀ w w' : Word, decodeCmd w = decodeCmd w' ↔ w.extractLsb' 0 3 = w'.extractLsb' 0 3)

/-- 30_encoding.md R73: two words that agree in bits [2:0] start the same command, and a read of CMD returns 0 in bits
[31:3]. -/
def Obligations.ReservedBitsAreIgnored : Prop :=
  (∀ (w w' : Word) (s : State), w.extractLsb' 0 3 = w'.extractLsb' 0 3 → s.startCommand w = s.startCommand w') ∧
  (∀ s : State, s.cmdWord.extractLsb' 3 29 = 0#29) ∧
  (∀ (w : Word) (s : State), (s.startCommand w).cmdWord = w &&& 7#32)

/-- 30_encoding.md R72, R77: some command words, as the tables write them. That 0x6 and 0x7 decode to instructions apart from
those of 0x2 and 0x3, with the flag set, is the model's DESIGN CHOICE (log entry 14): R79 and Z4 of
93_implementation_defined.md make them the same commands. -/
def Obligations.SampleCommandWordsDecode : Prop :=
  decodeCmd 0x00000000 = .encode false ∧ decodeCmd 0x00000001 = .decode false ∧ decodeCmd 0x00000002 = .idx2sym false ∧
  decodeCmd 0x00000003 = .sym2idx false ∧ decodeCmd 0x00000004 = .encode true ∧ decodeCmd 0x00000005 = .decode true ∧
  decodeCmd 0x00000006 = .idx2sym true ∧ decodeCmd 0x00000007 = .sym2idx true ∧ decodeCmd 0xFFFFFFFD = .decode true

/-- 44_host_interface.md R182, 10_state.md R33: on its turn a busy engine carries out the command held in CMD, and the turn
is taken from the schedule; right after a word is started, that command is the one the word decodes to. The completion step
is enabled exactly while BUSY: on its turn an idle engine changes nothing, and the turn alone is taken. -/
def Obligations.StepRunsTheCommandHeldInCmd : Prop :=
  (∀ (s : State) (i : Instr), s.nextTurn.1 = .engine → s.busy = true → decodeCmd s.cmdWord = i →
    step s = exec i { s with schedule := s.nextTurn.2 }) ∧
  (∀ s : State, s.nextTurn.1 = .engine → s.busy = false → step s = .next { s with schedule := s.nextTurn.2 }) ∧
  (∀ (s : State) (w : Word), step (s.withFetchWord 32 w.toNat) = exec (decodeCmd w) (s.startCommand w))

/-! ## The alphabet -/

/-- 40_alphabet.md R105: the alphabet bijection; exactly 32 codes are valid, and they are the listed ranges. -/
def Obligations.AlphabetIsABijection : Prop :=
  (∀ i : Index, symbolToIndex (symRom i) = some i) ∧
  (∀ (c : Byte) (i : Index), symbolToIndex c = some i → symRom i = c) ∧
  ((List.range 256).filter fun n => isSymbol (BitVec.ofNat 8 n)).length = 32 ∧
  (∀ c : Byte, isSymbol c = true ↔
    (0x30 ≤ c.toNat ∧ c.toNat ≤ 0x39) ∨ c.toNat = 0x61 ∨ (0x63 ≤ c.toNat ∧ c.toNat ≤ 0x68) ∨
    (0x6A ≤ c.toNat ∧ c.toNat ≤ 0x6B) ∨ (0x6D ≤ c.toNat ∧ c.toNat ≤ 0x6E) ∨ (0x70 ≤ c.toNat ∧ c.toNat ≤ 0x7A))

/-- 40_alphabet.md R103: for every code the range form and the table generated from SYM_ROM (R102) are the same. -/
def Obligations.InverseTableEqualsItsRangeForm : Prop :=
  ∀ c : Byte, invTableByRanges c = invTable c

/-- 40_alphabet.md R101, R106: every uppercase letter, 'b', 'i', 'l', 'o', every code from 0x80 on and 0x00 is rejected; no
code is folded or remapped. -/
def Obligations.OtherCharactersAreRejected : Prop :=
  (∀ c : Byte, 0x41 ≤ c.toNat → c.toNat ≤ 0x5A → symbolToIndex c = none) ∧
  (∀ c : Byte, 0x80 ≤ c.toNat → symbolToIndex c = none) ∧
  (∀ c : Byte, c ∈ [0x62#8, 0x69#8, 0x6C#8, 0x6F#8, 0x00#8] → symbolToIndex c = none) ∧
  (∀ c : Byte, c.toNat < 0x30 ∨ (0x3A ≤ c.toNat ∧ c.toNat ≤ 0x60) ∨ 0x7B ≤ c.toNat → symbolToIndex c = none)

/-! ## Encode and Decode -/

/-- 43_roundtrip.md R162: the length law of Encode. -/
def Obligations.EncodeLengthLaw : Prop :=
  ∀ b : List Byte,
    (encodeBytes b false).length = cdiv (b.length * 8) 5 ∧
    (b.length % 5 ≠ 0 → (encodeBytes b true).length + 1 = (encodeBytes b false).length) ∧
    (b.length % 5 = 0 → (encodeBytes b true).length = (encodeBytes b false).length)

/-- 43_roundtrip.md R163: the length law of Decode; for valid codes the length does not depend on their values. -/
def Obligations.DecodeLengthLaw : Prop :=
  ∀ s : List Byte, (∀ c ∈ s, isSymbol c = true) →
    ∃ r r', decodeSymbols s false = some r ∧ decodeSymbols s true = some r' ∧
      r.length = cdiv (5 * s.length) 8 ∧
      (s.length % 8 ≠ 0 → r'.length + 1 = r.length) ∧ (s.length % 8 = 0 → r'.length = r.length)

/-- 43_roundtrip.md R160: the output of Encode is the lowest digits of the big-endian value of the bytes, leading zeros kept;
dropping the partial symbol is reducing the value modulo 32^(S−1). -/
def Obligations.EncodeIsTheLowDigitsOfTheValue : Prop :=
  ∀ (b : List Byte) (ign : Bool),
    encodeBytes b ign = (digits (val8 b) 5 (encodeBytes b ign).length).map symRom ∧
    (b.length % 5 ≠ 0 → encodeBytes b true =
      (digits (val8 b % 32 ^ (cdiv (8 * b.length) 5 - 1)) 5 (cdiv (8 * b.length) 5 - 1)).map symRom)

/-- 43_roundtrip.md R161: the output of Decode on valid codes is the lowest bytes of their base-32 value. -/
def Obligations.DecodeIsTheLowBytesOfTheValue : Prop :=
  ∀ (s : List Byte) (d : List Index) (ign : Bool), symbolsToIndices s = some d →
    ∃ r, decodeSymbols s ign = some r ∧ r = digits (val5 d) 8 r.length

/-- 41_encode.md R121: seen as bits, the full output is the bit stream of the bytes with `5S − 8n` zero bits in front, cut
into groups of five; symbol `j` is SYM_ROM of group `j`. -/
def Obligations.EncodeSlicesThePaddedBitstream : Prop :=
  ∀ b : List Byte,
    bitStream (fullIndices b) = List.replicate (5 * cdiv (8 * b.length) 5 - 8 * b.length) false ++ bitStream b ∧
    encodeBytes b false = (fullIndices b).map symRom

/-- 42_decode.md R141: seen as bits, the full output is the bit stream of the symbols with `8B − 5m` zero bits in front. -/
def Obligations.DecodeSlicesThePaddedBitstream : Prop :=
  ∀ (s : List Byte) (d : List Index), symbolsToIndices s = some d →
    ∃ r, decodeSymbols s false = some r ∧
      bitStream r = List.replicate (8 * cdiv (5 * s.length) 8 - 5 * s.length) false ++ bitStream d

/-- 42_decode.md R143: Decode fails exactly if some code of its input is invalid, whatever the flag. -/
def Obligations.DecodeFailsExactlyOnAnInvalidCode : Prop :=
  ∀ (s : List Byte) (ign : Bool), decodeSymbols s ign = none ↔ ∃ c ∈ s, isSymbol c = false

/-- 41_encode.md R126: the symbol that the flag drops holds the top 3, 1, 4 or 2 bits of the first byte; it is '0' exactly
if these are all zero, and only then does the flag lose nothing of the value. -/
def Obligations.PartialSymbolHoldsTheTopBits : Prop :=
  ∀ (h : Byte) (tl : List Byte) (k : Nat),
    ((tl.length + 1) % 5 = 1 ∧ k = 3 ∨ (tl.length + 1) % 5 = 2 ∧ k = 1 ∨
      (tl.length + 1) % 5 = 3 ∧ k = 4 ∨ (tl.length + 1) % 5 = 4 ∧ k = 2) →
    encodeBytes (h :: tl) false = symRom ((h >>> (8 - k)).setWidth 5) :: encodeBytes (h :: tl) true ∧
    (symRom ((h >>> (8 - k)).setWidth 5) = 0x30#8 ↔ h >>> (8 - k) = 0#8) ∧
    ∃ d, symbolsToIndices (encodeBytes (h :: tl) true) = some d ∧ (val5 d = val8 (h :: tl) ↔ h >>> (8 - k) = 0#8)

/-- 42_decode.md R146: the byte that the flag drops is the value shifted down to its top 5, 2, 7, 4, 1, 6 or 3 bits; only
when it is zero does the flag lose nothing of the value. The rest of the output is what the flag leaves. -/
def Obligations.PartialByteHoldsTheTopBits : Prop :=
  ∀ (s : List Byte) (d : List Index), symbolsToIndices s = some d → s.length % 8 ≠ 0 →
    ∃ r, decodeSymbols s true = some r ∧
      decodeSymbols s false = some (BitVec.ofNat 8 (val5 d >>> (8 * (cdiv (5 * s.length) 8 - 1))) :: r) ∧
      val5 d >>> (8 * (cdiv (5 * s.length) 8 - 1)) < 2 ^ ([8, 5, 2, 7, 4, 1, 6, 3].getD (s.length % 8) 0) ∧
      (val8 r = val5 d ↔ val5 d >>> (8 * (cdiv (5 * s.length) 8 - 1)) = 0) ∧
      r.length = 5 * (s.length / 8) + [0, 0, 1, 1, 2, 3, 3, 4].getD (s.length % 8) 0

/-! ## Round trips -/

/-- 43_roundtrip.md R164: the exact round trip. -/
def Obligations.DecodeIgnInvertsEncode : Prop :=
  ∀ x : List Byte, decodeSymbols (encodeBytes x false) true = some x

/-- 43_roundtrip.md R165: Decode after Encode at every flag combination. `m` masks the top `5 − p` bits of the first byte
away. -/
def Obligations.DecodeAfterEncodeEveryFlag : Prop :=
  (∀ (x : List Byte) (a b : Bool), x.length % 5 = 0 → decodeSymbols (encodeBytes x a) b = some x) ∧
  (∀ (h : Byte) (tl : List Byte) (m : Byte),
    ((tl.length + 1) % 5 = 1 ∧ m = 0x1F#8 ∨ (tl.length + 1) % 5 = 2 ∧ m = 0x7F#8 ∨
      (tl.length + 1) % 5 = 3 ∧ m = 0x0F#8 ∨ (tl.length + 1) % 5 = 4 ∧ m = 0x3F#8) →
    decodeSymbols (encodeBytes (h :: tl) false) false = some (0x00#8 :: h :: tl) ∧
    decodeSymbols (encodeBytes (h :: tl) false) true = some (h :: tl) ∧
    decodeSymbols (encodeBytes (h :: tl) true) false = some ((h &&& m) :: tl) ∧
    decodeSymbols (encodeBytes (h :: tl) true) true = some tl)

/-- 43_roundtrip.md R166: Encode after Decode at the default flags puts `k` symbols '0' in front, `k` by the table. -/
def Obligations.EncodeAfterDecodeDefault : Prop :=
  ∀ s : List Byte, (∀ c ∈ s, isSymbol c = true) →
    let k := [0, 1, 2, 1, 1, 2, 1, 1].getD (s.length % 8) 0
    k + s.length = cdiv (8 * cdiv (5 * s.length) 8) 5 ∧
    ∃ y, decodeSymbols s false = some y ∧ encodeBytes y false = List.replicate k 0x30#8 ++ s

/-- 43_roundtrip.md R167: the length and the content of Encode after Decode at every flag combination; for a multiple of
eight symbols it is the identity. -/
def Obligations.EncodeAfterDecodeEveryFlag : Prop :=
  ∀ (s : List Byte) (d : List Index) (a b : Bool), symbolsToIndices s = some d →
    let delta : List Int := match a, b with
      | false, false => [0, 1, 2, 1, 1, 2, 1, 1]
      | false, true => [0, 0, 1, 0, 0, 1, 0, 1]
      | true, false => [0, -1, 0, -1, 0, 0, -1, 0]
      | true, true => [0, -1, -1, -2, -1, -1, -2, -1]
    ∃ y, decodeSymbols s a = some y ∧
      ((encodeBytes y b).length : Int) = s.length + delta.getD (s.length % 8) 0 ∧
      encodeBytes y b = (digits (val8 y) 5 (encodeBytes y b).length).map symRom ∧
      val8 y = val5 d % 256 ^ y.length ∧
      (s.length % 8 = 0 → encodeBytes y b = s)

/-- 43_roundtrip.md R168: the source's worked round trips, as corrected by 90_conflicts.md C6. -/
def Obligations.WorkedRoundTrips : Prop :=
  let srqpnmkj : List Byte := [0x73, 0x72, 0x71, 0x70, 0x6E, 0x6D, 0x6B, 0x6A]
  let s0a987 : List Byte := [0x30, 0x61, 0x39, 0x38, 0x37]
  (∀ a b : Bool, (decodeSymbols srqpnmkj a).map (encodeBytes · b) = some srqpnmkj) ∧
  decodeSymbols s0a987 true = some [0x05, 0x25, 0x07] ∧
  encodeBytes [0x05, 0x25, 0x07] false = s0a987 ∧
  (decodeSymbols s0a987 false).map (encodeBytes · false) = some ([0x30, 0x30] ++ s0a987) ∧
  (∀ a b : Bool, (decodeSymbols s0a987 a).map (encodeBytes · b) = some s0a987 ↔ a = true ∧ b = false)

/-! ## The reference datapaths -/

/-- 42_decode.md R147: the five formulas invert the eight of 41_encode.md R127 on every 40-bit group, and the eight them. -/
def Obligations.GroupFormulasInvertEachOther : Prop :=
  (∀ b0 b1 b2 b3 b4 : Byte, ∃ s0 s1 s2 s3 s4 s5 s6 s7 : Index,
    groupSymbols b0 b1 b2 b3 b4 = [s0, s1, s2, s3, s4, s5, s6, s7] ∧
    groupBytes s0 s1 s2 s3 s4 s5 s6 s7 = [b0, b1, b2, b3, b4]) ∧
  (∀ s0 s1 s2 s3 s4 s5 s6 s7 : Index, ∃ b0 b1 b2 b3 b4 : Byte,
    groupBytes s0 s1 s2 s3 s4 s5 s6 s7 = [b0, b1, b2, b3, b4] ∧
    groupSymbols b0 b1 b2 b3 b4 = [s0, s1, s2, s3, s4, s5, s6, s7])

/-- 41_encode.md R127: the group datapath of the encoder computes Encode. -/
def Obligations.EncodeByGroupsIsEncode : Prop :=
  ∀ (b : List Byte) (ign : Bool), encodeByGroups b ign = encodeBytes b ign

/-- 42_decode.md R147: the group datapath of the decoder computes Decode. -/
def Obligations.DecodeByGroupsIsDecode : Prop :=
  ∀ (s : List Byte) (ign : Bool), decodeByGroups s ign = decodeSymbols s ign

/-! ## The four commands -/

/-- 30_encoding.md R74, 70_reset_and_hazards.md R225: the input sequence has IN_LEN elements; element `i` is cell `i` where
that is known, and a free value of its own, the model's next numbered draw (log entry 2), where it is not. -/
def Obligations.OperandsAreTheCellsOfIn : Prop :=
  ∀ s : State, s.input.length = s.inLen.toNat ∧
    ∀ i, i < s.inLen.toNat →
      (∀ v, Memory.read s.inBuf i = some v → s.input[i]? = some v) ∧
      (Memory.read s.inBuf i = none → s.input[i]? = some (Config.any8
        (s.draws + ((List.range i).filter fun k => (Memory.read s.inBuf k).isNone).length)))

/-- 41_encode.md R125: an ENCODE within the depth completes with its symbols in OUT: DONE and no error, each symbol a digit of
the value of the input bytes, OUT_LEN their number (where it fits the register: log entry 5 for longer ones), every other
OUT cell, the inputs and the host as before. -/
def Obligations.EncodeCommandWritesItsSymbols : Prop :=
  ∀ (ign : Bool) (s : State), s.len ≤ s.params.inDepth →
    ∃ t, exec (.encode ign) s = .next t ∧ t.statusWord = 0x2#32 ∧
      (encodedLength s.len ign < 2 ^ 32 → t.outLen.toNat = encodedLength s.len ign) ∧
      (∀ j, j < encodedLength s.len ign → Memory.read t.outBuf j =
        some (symRom (BitVec.ofNat 5 (val8 s.input >>> (5 * (encodedLength s.len ign - 1 - j)))))) ∧
      (∀ j, encodedLength s.len ign ≤ j → Memory.read t.outBuf j = Memory.read s.outBuf j) ∧
      s.keepsInputs t ∧ s.keepsHost t

/-- 42_decode.md R145: a DECODE of valid codes within the depth completes with its bytes in OUT. -/
def Obligations.DecodeCommandWritesItsBytes : Prop :=
  ∀ (ign : Bool) (s : State) (d : List Index), s.len ≤ s.params.inDepth → symbolsToIndices s.input = some d →
    ∃ t, exec (.decode ign) s = .next t ∧ t.statusWord = 0x2#32 ∧
      t.outLen.toNat = decodedLength s.len ign ∧
      (∀ j, j < decodedLength s.len ign → Memory.read t.outBuf j =
        some (BitVec.ofNat 8 (val5 d >>> (8 * (decodedLength s.len ign - 1 - j))))) ∧
      (∀ j, decodedLength s.len ign ≤ j → Memory.read t.outBuf j = Memory.read s.outBuf j) ∧
      s.keepsInputs t ∧ s.keepsHost t

/-- 40_alphabet.md R107: an IDX2SYM within the depth completes with the symbol of the low five bits of each cell in OUT,
whatever IGN. -/
def Obligations.Idx2symCommandWritesItsSymbols : Prop :=
  ∀ (ign : Bool) (s : State), s.len ≤ s.params.inDepth →
    ∃ t, exec (.idx2sym ign) s = .next t ∧ t.statusWord = 0x2#32 ∧ t.outLen = s.inLen ∧
      (∀ j v, j < s.len → s.input[j]? = some v → Memory.read t.outBuf j = some (symRom (BitVec.ofNat 5 (v.toNat % 32)))) ∧
      (∀ j, s.len ≤ j → Memory.read t.outBuf j = Memory.read s.outBuf j) ∧
      s.keepsInputs t ∧ s.keepsHost t

/-- 40_alphabet.md R108: a SYM2IDX of valid codes within the depth completes with the index of each code in OUT, whatever
IGN; each output byte is below 0x20. -/
def Obligations.Sym2idxCommandWritesItsIndices : Prop :=
  ∀ (ign : Bool) (s : State), s.len ≤ s.params.inDepth → (∀ c ∈ s.input, isSymbol c = true) →
    ∃ t, exec (.sym2idx ign) s = .next t ∧ t.statusWord = 0x2#32 ∧ t.outLen = s.inLen ∧
      (∀ j c, j < s.len → s.input[j]? = some c →
        ∃ i : Index, symRom i = c ∧ Memory.read t.outBuf j = some (BitVec.ofNat 8 i.toNat)) ∧
      (∀ j, s.len ≤ j → Memory.read t.outBuf j = Memory.read s.outBuf j) ∧
      s.keepsInputs t ∧ s.keepsHost t

/-- 60_exceptions.md R200 to R202, 44_host_interface.md R182: one invalid code anywhere ends DECODE and SYM2IDX with
STATUS = 0x6 and OUT_LEN = 0, no OUT cell written, and nothing else recorded: IN, IN_LEN and CMD keep their values. -/
def Obligations.InvalidSymbolEndsTheCommandWithNoResult : Prop :=
  ∀ (i : Instr) (s : State), (∃ ign, i = .decode ign ∨ i = .sym2idx ign) → s.len ≤ s.params.inDepth →
    (∃ c ∈ s.input, isSymbol c = false) →
    ∃ t, exec i s = .next t ∧ t.statusWord = 0x6#32 ∧ t.outLen = 0 ∧ t.outBuf = s.outBuf ∧
      s.keepsInputs t ∧ s.keepsHost t

/-- 44_host_interface.md R183: an IN_LEN above IN_DEPTH ends every command with STATUS = DONE | ERR_LEN and OUT_LEN = 0; no
IN cell is read (no free value is drawn) and no OUT cell written. -/
def Obligations.LengthErrorEndsEveryCommand : Prop :=
  ∀ (i : Instr) (s : State), s.params.inDepth < s.inLen.toNat →
    exec i s = .next { s with busy := false, done := true, errSym := false, errLen := true, outLen := 0 }

/-- 44_host_interface.md R182, R190, 60_exceptions.md R202: what every command leaves alone: CMD, IN_LEN, IN, the host, all
of OUT after an error, and the OUT cells at or beyond OUT_LEN. (The last where the result is sure to fit OUT_LEN.) -/
def Obligations.CommandLeavesTheRestUnchanged : Prop :=
  ∀ (i : Instr) (s : State), ∃ t, exec i s = .next t ∧ s.keepsInputs t ∧ s.keepsHost t ∧ t.busy = false ∧ t.done = true ∧
    ¬ (t.errSym = true ∧ t.errLen = true) ∧
    (t.errSym = true ∨ t.errLen = true → t.outBuf = s.outBuf ∧ t.outLen = 0) ∧
    (s.resultFits → ∀ j, t.outLen.toNat ≤ j → Memory.read t.outBuf j = Memory.read s.outBuf j)

/-! ## The host's actions -/

/-- 44_host_interface.md R180: a CMD write while idle starts exactly one command, whatever STATUS was; IN and IN_LEN are not
changed. -/
def Obligations.CmdWriteStartsACommand : Prop :=
  ∀ (w : Word) (s : State), s.busy = false →
    hostAction (.regWrite 0 w) s = .done { s with
      cmdOp := w.extractLsb' 0 2, cmdIgn := w.getLsbD 2,
      busy := true, done := false, errSym := false, errLen := false, outLen := 0 }

/-- 44_host_interface.md R181: the input lock. -/
def Obligations.InputsAreLockedWhileBusy : Prop :=
  ∀ s : State, s.busy = true →
    (∀ w, hostAction (.regWrite 0 w) s = .done s) ∧ (∀ v, hostAction (.regWrite 1 v) s = .done s) ∧
    (∀ i v, i < s.params.inDepth → hostAction (.inWrite i v) s = .done s)

/-- 44_host_interface.md R184: the other register writes. -/
def Obligations.OtherRegisterWrites : Prop :=
  (∀ (v : Word) (s : State), s.busy = false → hostAction (.regWrite 1 v) s = .done { s with inLen := v }) ∧
  (∀ (n : Nat) (v : Word) (s : State), 2 ≤ n → n ≤ 7 → hostAction (.regWrite n v) s = .done s)

/-- 44_host_interface.md R185: the register reads, at any time and with no side effect; STATUS and CMD as numbers. -/
def Obligations.RegisterReads : Prop :=
  ∀ s : State,
    (∃ v, hostAction (.regRead 0) s = .value v s ∧ v.toNat = 4 * s.cmdIgn.toNat + s.cmdOp.toNat) ∧
    hostAction (.regRead 1) s = .value s.inLen s ∧
    (∃ v, hostAction (.regRead 2) s = .value v s ∧
      v.toNat = 8 * s.errLen.toNat + 4 * s.errSym.toNat + 2 * s.done.toNat + s.busy.toNat) ∧
    hostAction (.regRead 3) s = .value s.outLen s ∧
    (∀ n, 4 ≤ n → n ≤ 7 → hostAction (.regRead n) s = .value 0#32 s)

/-- 44_host_interface.md R186: the accesses to IN. A write while idle is stored, reads back, and changes no other cell and no
other state; while busy it is ignored; an unknown cell reads as a free value (the model's numbered draw: log entry 2); an
index at or beyond the depth is refused. -/
def Obligations.InputBufferAccesses : Prop :=
  ∀ (s : State) (i : Nat) (v : Byte),
    (i < s.params.inDepth → s.busy = false → ∃ m, hostAction (.inWrite i v) s = .done { s with inBuf := m } ∧
      Memory.read m i = some v ∧ ∀ k, k ≠ i → Memory.read m k = Memory.read s.inBuf k) ∧
    (i < s.params.inDepth → s.busy = true → hostAction (.inWrite i v) s = .done s) ∧
    (i < s.params.inDepth → ∀ b, Memory.read s.inBuf i = some b →
      hostAction (.inRead i) s = .value (b.setWidth 32) s) ∧
    (i < s.params.inDepth → Memory.read s.inBuf i = none →
      hostAction (.inRead i) s = .value ((Config.any8 s.draws).setWidth 32) { s with draws := s.draws + 1 }) ∧
    (s.params.inDepth ≤ i → hostAction (.inWrite i v) s = .refused .noSuchCell ∧
      hostAction (.inRead i) s = .refused .noSuchCell)

/-- 44_host_interface.md R187: the reads of OUT: a free value (the model's numbered draw: log entry 2) while busy, whatever the
cell holds; else the cell, or a free value where it is unknown; an index at or beyond the depth is refused. -/
def Obligations.OutputBufferReads : Prop :=
  ∀ (s : State) (j : Nat),
    (j < s.params.outDepth → s.busy = true →
      hostAction (.outRead j) s = .value ((Config.any8 s.draws).setWidth 32) { s with draws := s.draws + 1 }) ∧
    (j < s.params.outDepth → s.busy = false → ∀ b, Memory.read s.outBuf j = some b →
      hostAction (.outRead j) s = .value (b.setWidth 32) s) ∧
    (j < s.params.outDepth → s.busy = false → Memory.read s.outBuf j = none →
      hostAction (.outRead j) s = .value ((Config.any8 s.draws).setWidth 32) { s with draws := s.draws + 1 }) ∧
    (s.params.outDepth ≤ j → hostAction (.outRead j) s = .refused .noSuchCell)

/-- 44_host_interface.md R188, 20_memory.md R50: a write to a cell of OUT changes nothing; one to no cell is refused. -/
def Obligations.OutputBufferWritesAreIgnored : Prop :=
  ∀ (j : Nat) (v : Byte) (s : State),
    (j < s.params.outDepth → hostAction (.outWrite j v) s = .done s) ∧
    (s.params.outDepth ≤ j → hostAction (.outWrite j v) s = .refused .noSuchCell)

/-- 20_memory.md R50, R52, R53: an access at the ports is refused exactly if it is a burst, of another width than its space
has, started inside its unit, or to a unit that does not exist. R52 and R53 list the sub-word accesses of REG, the accesses of
IN and OUT wider than a byte, the bursts and the starts inside a slot; that an access of no unit (count 0), a narrower access
of IN or OUT, a wider one of REG and a start inside a cell of IN or OUT are refused too is the model's DEDUCED reading of
92_eei_decisions.md D15, and the form of the access (width, count, offset) is its DESIGN CHOICE (log entry 7). -/
def Obligations.IllShapedAccessesAreRefused : Prop :=
  ∀ (sp : Space) (index offset : Nat) (acc : Access) (s : State),
    (∃ r, portAccess sp index offset acc s = .refused r) ↔
      ¬ (acc.count = 1 ∧ acc.width = (match sp with | .reg => 32 | .inBuf => 8 | .outBuf => 8) ∧ offset = 0 ∧
        index < (match sp with | .reg => 8 | .inBuf => s.params.inDepth | .outBuf => s.params.outDepth))

/-- 20_memory.md R51, R50: wherever the platform places the units, an access at the address of a unit that exists is the
access to that unit, and an access at any other address reaches nothing. -/
def Obligations.SystemAddressReachesItsUnit : Prop :=
  ∀ (acc : Access) (s : State),
    (∀ (sp : Space) (i : Nat), i < spaceSize s.params sp →
      systemAccess (Config.blockBase sp i) acc s = portAccess sp i 0 acc s) ∧
    (∀ addr, (∀ (sp : Space) (i : Nat), i < spaceSize s.params sp → Config.blockBase sp i ≠ addr) →
      systemAccess addr acc s = .refused .noUnitAtAddress)

/-- 70_reset_and_hazards.md R220: the action Reset, at any time, also while a command runs. Every register is 0, the engine
idle, every cell unknown: the block is as at power-on. -/
def Obligations.ResetClearsTheBlock : Prop :=
  ∀ s : State, ∃ t, hostAction .reset s = .done t ∧
    t.cmdWord = 0#32 ∧ t.inLen = 0#32 ∧ t.statusWord = 0#32 ∧ t.outLen = 0#32 ∧ t.busy = false ∧
    (∀ i, Memory.read t.inBuf i = none) ∧ (∀ j, Memory.read t.outBuf j = none) ∧
    (State.resetOf s.params).keepsInputs t ∧ t.statusWord = (State.resetOf s.params).statusWord ∧
    t.outLen = (State.resetOf s.params).outLen ∧ t.outBuf = (State.resetOf s.params).outBuf

/-- The frame of the action Reset: R220 lists what it sets, and the host with its program, variables and turns is not in the
list. That the count of free values goes on, so that a draw after the reset is a fresh one, is the model's choice (log
entry 2). -/
def Obligations.ResetLeavesTheHost : Prop :=
  ∀ s : State, ∃ t, hostAction .reset s = .done t ∧ s.keepsHost t ∧ t.draws = s.draws

/-- 30_encoding.md R77: on the host's turn a step is the statement at the host's position, and after HALT it does nothing but
take the turn (so too past the last statement, the model's choice: log entry 3). What each statement of the notation does: the
host action of the table, the value read to its variable, then the next statement; BIT1 branches on one bit; HALT ends the
program. R77 gives WRI an 8-bit immediate; that the model admits any 32-bit one and writes its low 8 bits is its DESIGN CHOICE
(log entry 10, unsafe for a claim about a wider immediate). -/
def Obligations.HostStatementsPerformTheirActions : Prop :=
  ∀ s : State,
    (s.nextTurn.1 = .host → s.halted = false → ∀ st, s.prog[s.hostPc]? = some st →
      step s = hostStmt st { s with schedule := s.nextTurn.2 }) ∧
    (s.nextTurn.1 = .host → s.halted = true ∨ s.prog.length ≤ s.hostPc →
      step s = .next { s with schedule := s.nextTurn.2 }) ∧
    (∀ slot v u, hostAction (.regWrite slot v) s = .done u →
      hostStmt (.wrr slot (.imm v)) s = .next { u with hostPc := u.hostPc + 1 }) ∧
    (∀ (slot : Nat) (t : Fin 8) u, hostAction (.regWrite slot s.vars[t]) s = .done u →
      hostStmt (.wrr slot (.var t)) s = .next { u with hostPc := u.hostPc + 1 }) ∧
    (∀ slot t v u, hostAction (.regRead slot) s = .value v u →
      hostStmt (.rdr t slot) s = .next { u with vars := u.vars.set t v, hostPc := u.hostPc + 1 }) ∧
    (∀ i (v : Word) u, hostAction (.inWrite i (v.setWidth 8)) s = .done u →
      hostStmt (.wri i (.imm v)) s = .next { u with hostPc := u.hostPc + 1 }) ∧
    (∀ i (t : Fin 8) u, hostAction (.inWrite i ((s.vars[t]).setWidth 8)) s = .done u →
      hostStmt (.wri i (.var t)) s = .next { u with hostPc := u.hostPc + 1 }) ∧
    (∀ i t v u, hostAction (.inRead i) s = .value v u →
      hostStmt (.rdi t i) s = .next { u with vars := u.vars.set t v, hostPc := u.hostPc + 1 }) ∧
    (∀ j t v u, hostAction (.outRead j) s = .value v u →
      hostStmt (.rdo t j) s = .next { u with vars := u.vars.set t v, hostPc := u.hostPc + 1 }) ∧
    (∀ u, hostAction .reset s = .done u → hostStmt .rst s = .next { u with hostPc := u.hostPc + 1 }) ∧
    (∀ (t : Fin 8) (k : Fin 32) (label : Nat),
      ((s.vars[t]).toNat / 2 ^ k.val % 2 = 1 → hostStmt (.bit1 t k label) s = .next { s with hostPc := label }) ∧
      ((s.vars[t]).toNat / 2 ^ k.val % 2 = 0 → hostStmt (.bit1 t k label) s = .next { s with hostPc := s.hostPc + 1 })) ∧
    hostStmt .halt s = .next { s with halted := true }

/-- The three statements that the model adds to 30_encoding.md R77, and the form of their accesses, are the model's choice (log
entry 7): `wro` is the transaction OutWrite of R75, `port` and `sys` the access at the ports or at a system address, each ended
as the statements of R77 are: the value read to its variable, then the next statement. An access of the shape that
20_memory.md R52 admits is the transaction of R75 on its unit. A statement of any kind whose action is refused is refused, with
the name of the action's refusal (00_scope.md R14). That an immediate of WRI or `wro` may be wider than 8 bits, and its low 8
are written, is the model's choice too (log entry 10). -/
def Obligations.AccessStatementsAndRefusals : Prop :=
  ∀ s : State,
    (∀ j (v : Word) u, hostAction (.outWrite j (v.setWidth 8)) s = .done u →
      hostStmt (.wro j (.imm v)) s = .next { u with hostPc := u.hostPc + 1 }) ∧
    (∀ j (t : Fin 8) u, hostAction (.outWrite j ((s.vars[t]).setWidth 8)) s = .done u →
      hostStmt (.wro j (.var t)) s = .next { u with hostPc := u.hostPc + 1 }) ∧
    (∀ t sp index offset acc u, portAccess sp index offset acc s = .done u →
      hostStmt (.port t sp index offset acc) s = .next { u with hostPc := u.hostPc + 1 }) ∧
    (∀ t sp index offset acc v u, portAccess sp index offset acc s = .value v u →
      hostStmt (.port t sp index offset acc) s = .next { u with vars := u.vars.set t v, hostPc := u.hostPc + 1 }) ∧
    (∀ t addr acc u, systemAccess addr acc s = .done u →
      hostStmt (.sys t addr acc) s = .next { u with hostPc := u.hostPc + 1 }) ∧
    (∀ t addr acc v u, systemAccess addr acc s = .value v u →
      hostStmt (.sys t addr acc) s = .next { u with vars := u.vars.set t v, hostPc := u.hostPc + 1 }) ∧
    (∀ i (v : Word),
      portAccess .reg i 0 ⟨32, 1, .read⟩ s = hostAction (.regRead i) s ∧
      portAccess .reg i 0 ⟨32, 1, .write v⟩ s = hostAction (.regWrite i v) s ∧
      portAccess .inBuf i 0 ⟨8, 1, .read⟩ s = hostAction (.inRead i) s ∧
      portAccess .inBuf i 0 ⟨8, 1, .write v⟩ s = hostAction (.inWrite i (v.setWidth 8)) s ∧
      portAccess .outBuf i 0 ⟨8, 1, .read⟩ s = hostAction (.outRead i) s ∧
      portAccess .outBuf i 0 ⟨8, 1, .write v⟩ s = hostAction (.outWrite i (v.setWidth 8)) s) ∧
    ∀ r : Refusal,
      (∀ n (v : Word), hostAction (.regWrite n v) s = .refused r → hostStmt (.wrr n (.imm v)) s = .refused r) ∧
      (∀ n (t : Fin 8), hostAction (.regWrite n s.vars[t]) s = .refused r → hostStmt (.wrr n (.var t)) s = .refused r) ∧
      (∀ n t, hostAction (.regRead n) s = .refused r → hostStmt (.rdr t n) s = .refused r) ∧
      (∀ i (v : Word), hostAction (.inWrite i (v.setWidth 8)) s = .refused r → hostStmt (.wri i (.imm v)) s = .refused r) ∧
      (∀ i (t : Fin 8), hostAction (.inWrite i ((s.vars[t]).setWidth 8)) s = .refused r →
        hostStmt (.wri i (.var t)) s = .refused r) ∧
      (∀ i t, hostAction (.inRead i) s = .refused r → hostStmt (.rdi t i) s = .refused r) ∧
      (∀ j t, hostAction (.outRead j) s = .refused r → hostStmt (.rdo t j) s = .refused r) ∧
      (∀ j (v : Word), hostAction (.outWrite j (v.setWidth 8)) s = .refused r → hostStmt (.wro j (.imm v)) s = .refused r) ∧
      (∀ j (t : Fin 8), hostAction (.outWrite j ((s.vars[t]).setWidth 8)) s = .refused r →
        hostStmt (.wro j (.var t)) s = .refused r) ∧
      (∀ t sp index offset acc, portAccess sp index offset acc s = .refused r →
        hostStmt (.port t sp index offset acc) s = .refused r) ∧
      (∀ t addr acc, systemAccess addr acc s = .refused r → hostStmt (.sys t addr acc) s = .refused r)

/-- 30_encoding.md R77, R78: the words the eight mnemonics write to CMD; what a mnemonic, a statement, WAIT, LOADIN and RUN
expand to at position `p`. 40_alphabet.md R101: the code of a US-ASCII character is its US-ASCII code, that of symbol `i` is
SYM_ROM[i]. That LOADIN takes 8-bit immediates, and IN_LEN their number modulo 2^32, is the model's choice (log entry 13), and
so is the flag of `.idx2sym` and `.sym2idx`, by which each of the eight mnemonics is an instruction of its own (log entry 14). -/
def Obligations.MnemonicsAndPseudoInstructionsExpand : Prop :=
  [Instr.encode false, .decode false, .idx2sym false, .sym2idx false, .encode true, .decode true, .idx2sym true,
    .sym2idx true].map cmdStmt = (List.range 8).map (fun n => HostStmt.wrr 0 (.imm (BitVec.ofNat 32 n))) ∧
  ∀ (all : List Line) (p : Nat),
    Line.wait.expand all p = some [.rdr 7 2, .bit1 7 0 p] ∧
    (∀ i, (Line.run i).expand all p = some [cmdStmt i, .rdr 7 2, .bit1 7 0 (p + 1)]) ∧
    (∀ i, (Line.cmd i).expand all p = some [cmdStmt i]) ∧
    (∀ st, (Line.stmt st).expand all p = some [st]) ∧
    (∀ vs : List Byte, ∃ sts, (Line.loadin vs).expand all p = some (sts ++ [.wrr 1 (.imm (BitVec.ofNat 32 vs.length))]) ∧
      sts.length = vs.length ∧ ∀ k v, vs[k]? = some v → sts[k]? = some (HostStmt.wri k (.imm (v.setWidth 32)))) ∧
    (∀ cs : List Char, (Line.loadText cs).expand all p = (Line.loadin (cs.map charCode)).expand all p) ∧
    (∀ c : Char, c.toNat < 0x80 → (charCode c).toNat = c.toNat) ∧
    (∀ i : Index, ['0', '1', '2', '3', '4', '5', '6', '7', '8', '9', 'a', 'c', 'd', 'e', 'f', 'g', 'h', 'j', 'k', 'm', 'n', 'p',
      'q', 'r', 's', 't', 'u', 'v', 'w', 'x', 'y', 'z'][i.toNat]?.map charCode = some (symRom i)) ∧
    (∀ l : Line, ∀ sts, l.expand all p = some sts → sts.length = l.size)

/-- 30_encoding.md R77: a label names the position of what follows it, after the expansions of the lines before it, and stands
for no statement itself; BIT1 goes to that position; a program is the expansions of its lines one after another, each at its
position; one that names a label that no line defines is no program. That the first of several lines of one label counts is
the model's choice (log entry 12). -/
def Obligations.LabelsResolveToTheirPositions : Prop :=
  (∀ (name : Nat) (before after : List Line), Line.label name ∉ before →
    labelPos name 0 (before ++ .label name :: after) = some (before.map Line.size).sum) ∧
  (∀ (all : List Line) (p name : Nat) (t : Fin 8) (k : Fin 32),
    (Line.label name).expand all p = some [] ∧
    (∀ pos, labelPos name 0 all = some pos → (Line.bit1 t k name).expand all p = some [.bit1 t k pos]) ∧
    (Line.label name ∉ all → (Line.bit1 t k name).expand all p = none)) ∧
  (∀ (ls : List Line) (prog : List HostStmt), assemble ls = some prog ↔
    ∃ parts : List (List HostStmt), prog = parts.flatten ∧ parts.length = ls.length ∧
      ∀ (k : Nat) (l : Line), ls[k]? = some l →
        ∃ sts, parts[k]? = some sts ∧ l.expand ls ((ls.take k).map Line.size).sum = some sts) ∧
  (∀ (ls : List Line) (name : Nat) (t : Fin 8) (k : Fin 32), Line.bit1 t k name ∈ ls → Line.label name ∉ ls →
    assemble ls = none)

/-! ## The whole machine -/

/-- 00_scope.md R5, 10_state.md R26, R27, R31, R32: the block is in a good state after reset, at any legal depths;
`State.reset` has the depths of log entry 1, the model's choice. -/
def Obligations.ResetMeetsTheInvariant : Prop :=
  (∀ p : Params, p.legal = true → (State.resetOf p).Inv) ∧ State.reset.Inv

/-- 00_scope.md R5, 10_state.md R26, R27, R31, R32, 44_host_interface.md R187: every step keeps the invariant: the buffers stay
canonical and within their depths, STATUS legal, OUT_LEN at most OUT_DEPTH and 0 while busy or after an error, and every
OUT cell below OUT_LEN known. -/
def Obligations.EveryStepKeepsTheInvariant : Prop :=
  ∀ s t : State, s.Inv → step s = .next t → t.Inv

/-- 10_state.md R26: STATUS is 0, 1, 2, 6 or 10 after reset, and a step leads from such a value to such a value; it is the
value a read of STATUS returns. -/
def Obligations.StatusTakesOnlyLegalValues : Prop :=
  (∀ p, (State.resetOf p).statusWord = 0#32) ∧
  (∀ s t : State, s.statusWord ∈ [0#32, 1#32, 2#32, 6#32, 10#32] → step s = .next t →
    t.statusWord ∈ [0#32, 1#32, 2#32, 6#32, 10#32]) ∧
  (∀ s : State, hostAction (.regRead 2) s = .value s.statusWord s)

/-- 10_state.md R34: STATUS is written by three events only: the start of a command (a CMD write while idle), the completion
of one (the turn of a busy engine), and reset. -/
def Obligations.FlagsAreWrittenByThreeEventsOnly : Prop :=
  (∀ (a : HostAction) (s t : State), (hostAction a s).after = some t → t.statusWord ≠ s.statusWord →
    a = .reset ∨ ∃ w, a = .regWrite 0 w ∧ s.busy = false) ∧
  (∀ s t : State, s.nextTurn.1 = .engine → step s = .next t → t.statusWord ≠ s.statusWord → s.busy = true)

/-- 20_memory.md R50, R56, 44_host_interface.md R188: no host action but Reset changes OUT, and only the start of a command
changes OUT_LEN, to 0. -/
def Obligations.HostNeverWritesOut : Prop :=
  ∀ (a : HostAction) (s t : State), (hostAction a s).after = some t → a ≠ .reset →
    t.outBuf = s.outBuf ∧ (t.outLen = s.outLen ∨ s.busy = false ∧ t.outLen = 0 ∧ ∃ w, a = .regWrite 0 w)

/-- 20_memory.md R56: no read has a side effect (the model counts the free values drawn, and nothing else moves). -/
def Obligations.HostReadsChangeNothing : Prop :=
  ∀ (a : HostAction) (s t : State) (v : Word), hostAction a s = .value v t →
    t = { s with draws := t.draws } ∧ s.draws ≤ t.draws ∧ (t.draws = s.draws → hostAction a t = .value v t)

/-- 44_host_interface.md R189: once a command has started, its completion stays enabled until it is taken or a reset
intervenes: a turn of the host with no RST leaves BUSY, CMD, IN_LEN and IN as they are. -/
def Obligations.BusyLastsUntilCompletionOrReset : Prop :=
  ∀ s t : State, s.busy = true → s.nextTurn.1 = .host → s.hostNext ≠ some .rst → step s = .next t →
    t.busy = true ∧ s.keepsInputs t ∧ t.outBuf = s.outBuf ∧ t.outLen = s.outLen ∧ t.statusWord = s.statusWord

/-- 44_host_interface.md R189, 70_reset_and_hazards.md R226: liveness. Under any schedule, a command that has started under a
well-formed host program with no RST completes after at most as many host turns as the schedule holds (that a schedule is
finite, and a busy engine moves when it is used up, is the model's form of the weak fairness: log entry 4; that a program with
a label after its last statement is not well formed is its choice: log entry 15). -/
def Obligations.StartedCommandCompletes : Prop :=
  ∀ s : State, s.busy = true → programWellFormed s.params s.prog = true → neverResets s.prog = true →
    ∃ k t, k ≤ s.schedule.length + 1 ∧ runSteps k s = .next t ∧ t.busy = false ∧ t.done = true

/-- 44_host_interface.md R181, 70_reset_and_hazards.md R228: the moment of the completion is unobservable. However many host
turns with no RST come between, a command whose input is known ends with the same STATUS, OUT_LEN and OUT. -/
def Obligations.CompletionIsTheSameAfterAnyHostTurns : Prop :=
  ∀ (n : Nat) (s t : State) (rest : List Agent), s.busy = true → neverResets s.prog = true →
    s.schedule = List.replicate n .host ++ rest → rest.head? ≠ some .host →
    (s.len ≤ s.params.inDepth → s.inputKnown ∧ s.resultFits) →
    runSteps n s = .next t →
    ∃ u v, step t = .next u ∧ exec s.command s = .next v ∧
      u.statusWord = v.statusWord ∧ u.outLen = v.outLen ∧ u.outBuf = v.outBuf ∧ s.keepsInputs u

/-- 10_state.md R35: a command's result depends only on its OP, IGN, IN_LEN and the IN cells below IN_LEN: not on OUT, on
STATUS, on the other cells, on the host, or on any earlier command. A cell not written since reset reads as a free value (log
entry 2), and so does OUT_LEN after a result too long for it (log entry 5): either no such value is drawn, or the two counts of
draws are equal. That equal counts draw equal values, the disjunct `s.draws = t.draws`, is the model's choice and not the
spec's: by U1 of 93_implementation_defined.md two reads need not agree. -/
def Obligations.ResultDependsOnlyOnItsOperands : Prop :=
  ∀ (i : Instr) (s t : State), s.params = t.params → s.inLen = t.inLen →
    (s.len ≤ s.params.inDepth → ∀ k, k < s.len → Memory.read s.inBuf k = Memory.read t.inBuf k) →
    (s.draws = t.draws ∨ (s.len ≤ s.params.inDepth → s.inputKnown ∧ s.resultFits)) →
    ∃ u v, exec i s = .next u ∧ exec i t = .next v ∧ u.statusWord = v.statusWord ∧ u.outLen = v.outLen ∧
      ∀ j, j < u.outLen.toNat → Memory.read u.outBuf j = Memory.read v.outBuf j

/-- 44_host_interface.md R190: the same command started again after its completion gives the same STATUS, OUT_LEN and OUT. -/
def Obligations.RepeatedCommandGivesTheSameResult : Prop :=
  ∀ (i : Instr) (s t : State), (s.len ≤ s.params.inDepth → s.inputKnown ∧ s.resultFits) → exec i s = .next t →
    ∃ t' u, hostAction (.regWrite 0 (encodeCmd i)) t = .done t' ∧ exec i t' = .next u ∧ t'.command = i ∧
      u.statusWord = t.statusWord ∧ u.outLen = t.outLen ∧ ∀ j, Memory.read u.outBuf j = Memory.read t.outBuf j

/-- 20_memory.md R50 to R53, 30_encoding.md R73, R75: nothing but a host access outside the block's units or shapes is ever
refused: under a well-formed host program no step is (that a program with a label after its last statement is not well formed is
the model's choice: log entry 15). -/
def Obligations.WellFormedProgramIsNeverRefused : Prop :=
  ∀ s : State, programWellFormed s.params s.prog = true → ∃ t, step s = .next t
end

