-- ==== Sys2Proof/Laws/Alphabet.lean ====
section
/-! SUPPORT. What the indices of a code sequence are, said once. -/

namespace Sys2Proof.Machine

/-- One index for each code. -/
theorem length_symbolsToIndices {cs : List Byte} {d : List Index} (h : symbolsToIndices cs = some d) :
    d.length = cs.length := by
  induction cs generalizing d with
  | nil => simp only [symbolsToIndices, Option.some.injEq] at h; simp [← h]
  | cons c cs ih =>
    simp only [symbolsToIndices] at h
    split at h
    · next i is _ h2 =>
      obtain rfl : i :: is = d := by simpa using h
      simp [ih h2]
    · simp at h

/-- The indices, one code at a time. -/
theorem symbolsToIndices_cons {c : Byte} {cs : List Byte} {d : List Index} :
    symbolsToIndices (c :: cs) = some d ↔ ∃ i is, symbolToIndex c = some i ∧ symbolsToIndices cs = some is ∧ d = i :: is := by
  simp only [symbolsToIndices]
  split
  · next i is h1 h2 => simp [h1, h2, eq_comm]
  · next h =>
    refine iff_of_false (by simp) ?_
    rintro ⟨i, is, h1, h2, -⟩
    exact h i is h1 h2

end Sys2Proof.Machine
end

