-- ==== Sys2Proof/Laws/Bitstream.lean ====
section
/-! SUPPORT. The laws of big-endian values and their digits: `digits` inverts `bigEndian`, and `bigEndian` of `digits` is
the remainder modulo the digits' width. -/

namespace Sys2Proof.Machine

variable {w : Nat}

@[simp] theorem length_digits (V w L : Nat) : (digits V w L).length = L := by simp [digits]

@[simp] theorem digits_zero (V w : Nat) : digits V w 0 = [] := rfl

theorem getElem_digits (V w L j : Nat) (h : j < (digits V w L).length) :
    (digits V w L)[j] = BitVec.ofNat w (V >>> (w * (L - 1 - j))) := by
  simp [digits]

/-- The first digit, and the digits after it. -/
theorem digits_succ (V w L : Nat) : digits V w (L + 1) = BitVec.ofNat w (V >>> (w * L)) :: digits V w L := by
  rw [digits, List.range_succ_eq_map, List.map_cons, List.map_map, digits]
  refine congrArg₂ List.cons (by simp) (List.map_congr_left fun j hj => ?_)
  simp only [Function.comp_apply, Nat.succ_eq_add_one]
  rw [show L + 1 - 1 - (j + 1) = L - 1 - j by omega]

@[simp] theorem digits_tail (V w L : Nat) : (digits V w L).tail = digits V w (L - 1) := by
  cases L with
  | zero => rfl
  | succ L => simp [digits_succ]

theorem bigEndian_lt (d : List (BitVec w)) : bigEndian d < 2 ^ (w * d.length) := by
  induction d with
  | nil => simp [bigEndian]
  | cons a d ih =>
    have ha := a.isLt
    have : (a.toNat + 1) * 2 ^ (w * d.length) ≤ 2 ^ w * 2 ^ (w * d.length) := Nat.mul_le_mul_right _ ha
    rw [bigEndian, List.length_cons, Nat.mul_succ, Nat.add_comm (w * d.length) w, Nat.pow_add]
    nlinarith

/-- Only the value modulo `2^(w·L)` matters to `L` digits. -/
theorem digits_mod (V w L : Nat) : digits (V % 2 ^ (w * L)) w L = digits V w L := by
  refine List.map_congr_left fun j hj => ?_
  have hj := List.mem_range.1 hj
  refine BitVec.eq_of_getLsbD_eq fun i hi => ?_
  have : w * (L - 1 - j) + i < w * L := by
    have : w * (L - 1 - j) + w = w * (L - 1 - j + 1) := (Nat.mul_succ _ _).symm
    have : w * (L - 1 - j + 1) ≤ w * L := Nat.mul_le_mul_left w (by omega)
    omega
  rw [BitVec.getLsbD_ofNat, BitVec.getLsbD_ofNat, Nat.testBit_shiftRight, Nat.testBit_shiftRight, Nat.testBit_mod_two_pow,
    decide_eq_true this, Bool.true_and]

/-- `digits` gives back a sequence from its value. -/
theorem digits_bigEndian (d : List (BitVec w)) : digits (bigEndian d) w d.length = d := by
  induction d with
  | nil => rfl
  | cons a d ih =>
    have hd := bigEndian_lt d
    rw [List.length_cons, digits_succ, ← digits_mod, bigEndian, Nat.shiftRight_eq_div_pow, Nat.mul_comm a.toNat,
      Nat.mul_add_div (Nat.two_pow_pos _), Nat.div_eq_of_lt hd, Nat.add_zero, Nat.mul_add_mod, Nat.mod_eq_of_lt hd, ih,
      BitVec.ofNat_toNat, BitVec.setWidth_eq]

/-- The value of `L` digits is the remainder modulo `2^(w·L)`. -/
theorem bigEndian_digits (V w L : Nat) : bigEndian (digits V w L) = V % 2 ^ (w * L) := by
  induction L with
  | zero => simp [bigEndian, Nat.mod_one]
  | succ L ih =>
    rw [digits_succ, bigEndian, length_digits, ih, BitVec.toNat_ofNat, Nat.shiftRight_eq_div_pow, Nat.mul_succ, Nat.pow_add,
      Nat.mod_mul, Nat.add_comm, Nat.mul_comm (_ % 2 ^ w)]

theorem bigEndian_append (a b : List (BitVec w)) :
    bigEndian (a ++ b) = bigEndian a * 2 ^ (w * b.length) + bigEndian b := by
  induction a with
  | nil => simp [bigEndian]
  | cons x a ih =>
    rw [List.cons_append, bigEndian, ih, bigEndian, List.length_append, Nat.mul_add, Nat.pow_add]
    ring

end Sys2Proof.Machine
end

