-- ==== Sys2Proof/Laws/State.lean ====
section
/-! SUPPORT. What each update of the state does to each field: one lemma per field per update. -/

namespace Sys2Proof.Machine

variable (s : State)

/-! `setStatus` -/

@[simp] theorem State.setStatus_params (b d e l : Bool) : (s.setStatus b d e l).params = s.params := rfl
@[simp] theorem State.setStatus_cmdOp (b d e l : Bool) : (s.setStatus b d e l).cmdOp = s.cmdOp := rfl
@[simp] theorem State.setStatus_cmdIgn (b d e l : Bool) : (s.setStatus b d e l).cmdIgn = s.cmdIgn := rfl
@[simp] theorem State.setStatus_inLen (b d e l : Bool) : (s.setStatus b d e l).inLen = s.inLen := rfl
@[simp] theorem State.setStatus_busy (b d e l : Bool) : (s.setStatus b d e l).busy = b := rfl
@[simp] theorem State.setStatus_done (b d e l : Bool) : (s.setStatus b d e l).done = d := rfl
@[simp] theorem State.setStatus_errSym (b d e l : Bool) : (s.setStatus b d e l).errSym = e := rfl
@[simp] theorem State.setStatus_errLen (b d e l : Bool) : (s.setStatus b d e l).errLen = l := rfl
@[simp] theorem State.setStatus_outLen (b d e l : Bool) : (s.setStatus b d e l).outLen = s.outLen := rfl
@[simp] theorem State.setStatus_inBuf (b d e l : Bool) : (s.setStatus b d e l).inBuf = s.inBuf := rfl
@[simp] theorem State.setStatus_outBuf (b d e l : Bool) : (s.setStatus b d e l).outBuf = s.outBuf := rfl
@[simp] theorem State.setStatus_draws (b d e l : Bool) : (s.setStatus b d e l).draws = s.draws := rfl
@[simp] theorem State.setStatus_prog (b d e l : Bool) : (s.setStatus b d e l).prog = s.prog := rfl
@[simp] theorem State.setStatus_hostPc (b d e l : Bool) : (s.setStatus b d e l).hostPc = s.hostPc := rfl
@[simp] theorem State.setStatus_vars (b d e l : Bool) : (s.setStatus b d e l).vars = s.vars := rfl
@[simp] theorem State.setStatus_halted (b d e l : Bool) : (s.setStatus b d e l).halted = s.halted := rfl
@[simp] theorem State.setStatus_schedule (b d e l : Bool) : (s.setStatus b d e l).schedule = s.schedule := rfl

/-! `goto` -/

@[simp] theorem State.goto_params (pc : Nat) : (s.goto pc).params = s.params := rfl
@[simp] theorem State.goto_cmdOp (pc : Nat) : (s.goto pc).cmdOp = s.cmdOp := rfl
@[simp] theorem State.goto_cmdIgn (pc : Nat) : (s.goto pc).cmdIgn = s.cmdIgn := rfl
@[simp] theorem State.goto_inLen (pc : Nat) : (s.goto pc).inLen = s.inLen := rfl
@[simp] theorem State.goto_busy (pc : Nat) : (s.goto pc).busy = s.busy := rfl
@[simp] theorem State.goto_done (pc : Nat) : (s.goto pc).done = s.done := rfl
@[simp] theorem State.goto_errSym (pc : Nat) : (s.goto pc).errSym = s.errSym := rfl
@[simp] theorem State.goto_errLen (pc : Nat) : (s.goto pc).errLen = s.errLen := rfl
@[simp] theorem State.goto_outLen (pc : Nat) : (s.goto pc).outLen = s.outLen := rfl
@[simp] theorem State.goto_inBuf (pc : Nat) : (s.goto pc).inBuf = s.inBuf := rfl
@[simp] theorem State.goto_outBuf (pc : Nat) : (s.goto pc).outBuf = s.outBuf := rfl
@[simp] theorem State.goto_draws (pc : Nat) : (s.goto pc).draws = s.draws := rfl
@[simp] theorem State.goto_prog (pc : Nat) : (s.goto pc).prog = s.prog := rfl
@[simp] theorem State.goto_hostPc (pc : Nat) : (s.goto pc).hostPc = pc := rfl
@[simp] theorem State.goto_vars (pc : Nat) : (s.goto pc).vars = s.vars := rfl
@[simp] theorem State.goto_halted (pc : Nat) : (s.goto pc).halted = s.halted := rfl
@[simp] theorem State.goto_schedule (pc : Nat) : (s.goto pc).schedule = s.schedule := rfl

/-! `setVar` -/

@[simp] theorem State.setVar_params (t : Fin 8) (v : Word) : (s.setVar t v).params = s.params := rfl
@[simp] theorem State.setVar_cmdOp (t : Fin 8) (v : Word) : (s.setVar t v).cmdOp = s.cmdOp := rfl
@[simp] theorem State.setVar_cmdIgn (t : Fin 8) (v : Word) : (s.setVar t v).cmdIgn = s.cmdIgn := rfl
@[simp] theorem State.setVar_inLen (t : Fin 8) (v : Word) : (s.setVar t v).inLen = s.inLen := rfl
@[simp] theorem State.setVar_busy (t : Fin 8) (v : Word) : (s.setVar t v).busy = s.busy := rfl
@[simp] theorem State.setVar_done (t : Fin 8) (v : Word) : (s.setVar t v).done = s.done := rfl
@[simp] theorem State.setVar_errSym (t : Fin 8) (v : Word) : (s.setVar t v).errSym = s.errSym := rfl
@[simp] theorem State.setVar_errLen (t : Fin 8) (v : Word) : (s.setVar t v).errLen = s.errLen := rfl
@[simp] theorem State.setVar_outLen (t : Fin 8) (v : Word) : (s.setVar t v).outLen = s.outLen := rfl
@[simp] theorem State.setVar_inBuf (t : Fin 8) (v : Word) : (s.setVar t v).inBuf = s.inBuf := rfl
@[simp] theorem State.setVar_outBuf (t : Fin 8) (v : Word) : (s.setVar t v).outBuf = s.outBuf := rfl
@[simp] theorem State.setVar_draws (t : Fin 8) (v : Word) : (s.setVar t v).draws = s.draws := rfl
@[simp] theorem State.setVar_prog (t : Fin 8) (v : Word) : (s.setVar t v).prog = s.prog := rfl
@[simp] theorem State.setVar_hostPc (t : Fin 8) (v : Word) : (s.setVar t v).hostPc = s.hostPc := rfl
@[simp] theorem State.setVar_vars (t : Fin 8) (v : Word) : (s.setVar t v).vars = s.vars.set t v := rfl
@[simp] theorem State.setVar_halted (t : Fin 8) (v : Word) : (s.setVar t v).halted = s.halted := rfl
@[simp] theorem State.setVar_schedule (t : Fin 8) (v : Word) : (s.setVar t v).schedule = s.schedule := rfl

/-! `takeTurn` -/

@[simp] theorem State.takeTurn_params : (s.takeTurn).params = s.params := rfl
@[simp] theorem State.takeTurn_cmdOp : (s.takeTurn).cmdOp = s.cmdOp := rfl
@[simp] theorem State.takeTurn_cmdIgn : (s.takeTurn).cmdIgn = s.cmdIgn := rfl
@[simp] theorem State.takeTurn_inLen : (s.takeTurn).inLen = s.inLen := rfl
@[simp] theorem State.takeTurn_busy : (s.takeTurn).busy = s.busy := rfl
@[simp] theorem State.takeTurn_done : (s.takeTurn).done = s.done := rfl
@[simp] theorem State.takeTurn_errSym : (s.takeTurn).errSym = s.errSym := rfl
@[simp] theorem State.takeTurn_errLen : (s.takeTurn).errLen = s.errLen := rfl
@[simp] theorem State.takeTurn_outLen : (s.takeTurn).outLen = s.outLen := rfl
@[simp] theorem State.takeTurn_inBuf : (s.takeTurn).inBuf = s.inBuf := rfl
@[simp] theorem State.takeTurn_outBuf : (s.takeTurn).outBuf = s.outBuf := rfl
@[simp] theorem State.takeTurn_draws : (s.takeTurn).draws = s.draws := rfl
@[simp] theorem State.takeTurn_prog : (s.takeTurn).prog = s.prog := rfl
@[simp] theorem State.takeTurn_hostPc : (s.takeTurn).hostPc = s.hostPc := rfl
@[simp] theorem State.takeTurn_vars : (s.takeTurn).vars = s.vars := rfl
@[simp] theorem State.takeTurn_halted : (s.takeTurn).halted = s.halted := rfl
@[simp] theorem State.takeTurn_schedule : (s.takeTurn).schedule = s.nextTurn.2 := rfl

/-! `afterInput` -/

@[simp] theorem State.afterInput_params : (s.afterInput).params = s.params := rfl
@[simp] theorem State.afterInput_cmdOp : (s.afterInput).cmdOp = s.cmdOp := rfl
@[simp] theorem State.afterInput_cmdIgn : (s.afterInput).cmdIgn = s.cmdIgn := rfl
@[simp] theorem State.afterInput_inLen : (s.afterInput).inLen = s.inLen := rfl
@[simp] theorem State.afterInput_busy : (s.afterInput).busy = s.busy := rfl
@[simp] theorem State.afterInput_done : (s.afterInput).done = s.done := rfl
@[simp] theorem State.afterInput_errSym : (s.afterInput).errSym = s.errSym := rfl
@[simp] theorem State.afterInput_errLen : (s.afterInput).errLen = s.errLen := rfl
@[simp] theorem State.afterInput_outLen : (s.afterInput).outLen = s.outLen := rfl
@[simp] theorem State.afterInput_inBuf : (s.afterInput).inBuf = s.inBuf := rfl
@[simp] theorem State.afterInput_outBuf : (s.afterInput).outBuf = s.outBuf := rfl
@[simp] theorem State.afterInput_draws : (s.afterInput).draws = (cellsFrom s.inBuf 0 s.len s.draws).2 := rfl
@[simp] theorem State.afterInput_prog : (s.afterInput).prog = s.prog := rfl
@[simp] theorem State.afterInput_hostPc : (s.afterInput).hostPc = s.hostPc := rfl
@[simp] theorem State.afterInput_vars : (s.afterInput).vars = s.vars := rfl
@[simp] theorem State.afterInput_halted : (s.afterInput).halted = s.halted := rfl
@[simp] theorem State.afterInput_schedule : (s.afterInput).schedule = s.schedule := rfl

/-! `startCommand` -/

@[simp] theorem State.startCommand_params (w : Word) : (s.startCommand w).params = s.params := rfl
@[simp] theorem State.startCommand_cmdOp (w : Word) : (s.startCommand w).cmdOp = opField w := rfl
@[simp] theorem State.startCommand_cmdIgn (w : Word) : (s.startCommand w).cmdIgn = ignField w := rfl
@[simp] theorem State.startCommand_inLen (w : Word) : (s.startCommand w).inLen = s.inLen := rfl
@[simp] theorem State.startCommand_busy (w : Word) : (s.startCommand w).busy = true := rfl
@[simp] theorem State.startCommand_done (w : Word) : (s.startCommand w).done = false := rfl
@[simp] theorem State.startCommand_errSym (w : Word) : (s.startCommand w).errSym = false := rfl
@[simp] theorem State.startCommand_errLen (w : Word) : (s.startCommand w).errLen = false := rfl
@[simp] theorem State.startCommand_outLen (w : Word) : (s.startCommand w).outLen = 0 := rfl
@[simp] theorem State.startCommand_inBuf (w : Word) : (s.startCommand w).inBuf = s.inBuf := rfl
@[simp] theorem State.startCommand_outBuf (w : Word) : (s.startCommand w).outBuf = s.outBuf := rfl
@[simp] theorem State.startCommand_draws (w : Word) : (s.startCommand w).draws = s.draws := rfl
@[simp] theorem State.startCommand_prog (w : Word) : (s.startCommand w).prog = s.prog := rfl
@[simp] theorem State.startCommand_hostPc (w : Word) : (s.startCommand w).hostPc = s.hostPc := rfl
@[simp] theorem State.startCommand_vars (w : Word) : (s.startCommand w).vars = s.vars := rfl
@[simp] theorem State.startCommand_halted (w : Word) : (s.startCommand w).halted = s.halted := rfl
@[simp] theorem State.startCommand_schedule (w : Word) : (s.startCommand w).schedule = s.schedule := rfl

/-! `endInError` -/

@[simp] theorem State.endInError_params (e : CmdError) : (s.endInError e).params = s.params := rfl
@[simp] theorem State.endInError_cmdOp (e : CmdError) : (s.endInError e).cmdOp = s.cmdOp := rfl
@[simp] theorem State.endInError_cmdIgn (e : CmdError) : (s.endInError e).cmdIgn = s.cmdIgn := rfl
@[simp] theorem State.endInError_inLen (e : CmdError) : (s.endInError e).inLen = s.inLen := rfl
@[simp] theorem State.endInError_busy (e : CmdError) : (s.endInError e).busy = false := rfl
@[simp] theorem State.endInError_done (e : CmdError) : (s.endInError e).done = true := rfl
@[simp] theorem State.endInError_errSym (e : CmdError) : (s.endInError e).errSym = (e == .invalidSymbol) := rfl
@[simp] theorem State.endInError_errLen (e : CmdError) : (s.endInError e).errLen = (e == .lengthError) := rfl
@[simp] theorem State.endInError_outLen (e : CmdError) : (s.endInError e).outLen = 0 := rfl
@[simp] theorem State.endInError_inBuf (e : CmdError) : (s.endInError e).inBuf = s.inBuf := rfl
@[simp] theorem State.endInError_outBuf (e : CmdError) : (s.endInError e).outBuf = s.outBuf := rfl
@[simp] theorem State.endInError_draws (e : CmdError) : (s.endInError e).draws = s.draws := rfl
@[simp] theorem State.endInError_prog (e : CmdError) : (s.endInError e).prog = s.prog := rfl
@[simp] theorem State.endInError_hostPc (e : CmdError) : (s.endInError e).hostPc = s.hostPc := rfl
@[simp] theorem State.endInError_vars (e : CmdError) : (s.endInError e).vars = s.vars := rfl
@[simp] theorem State.endInError_halted (e : CmdError) : (s.endInError e).halted = s.halted := rfl
@[simp] theorem State.endInError_schedule (e : CmdError) : (s.endInError e).schedule = s.schedule := rfl

/-! `resetBlock` -/

@[simp] theorem State.resetBlock_params : (s.resetBlock).params = s.params := rfl
@[simp] theorem State.resetBlock_cmdOp : (s.resetBlock).cmdOp = 0 := rfl
@[simp] theorem State.resetBlock_cmdIgn : (s.resetBlock).cmdIgn = false := rfl
@[simp] theorem State.resetBlock_inLen : (s.resetBlock).inLen = 0 := rfl
@[simp] theorem State.resetBlock_busy : (s.resetBlock).busy = false := rfl
@[simp] theorem State.resetBlock_done : (s.resetBlock).done = false := rfl
@[simp] theorem State.resetBlock_errSym : (s.resetBlock).errSym = false := rfl
@[simp] theorem State.resetBlock_errLen : (s.resetBlock).errLen = false := rfl
@[simp] theorem State.resetBlock_outLen : (s.resetBlock).outLen = 0 := rfl
@[simp] theorem State.resetBlock_inBuf : (s.resetBlock).inBuf = [] := rfl
@[simp] theorem State.resetBlock_outBuf : (s.resetBlock).outBuf = [] := rfl
@[simp] theorem State.resetBlock_draws : (s.resetBlock).draws = s.draws := rfl
@[simp] theorem State.resetBlock_prog : (s.resetBlock).prog = s.prog := rfl
@[simp] theorem State.resetBlock_hostPc : (s.resetBlock).hostPc = s.hostPc := rfl
@[simp] theorem State.resetBlock_vars : (s.resetBlock).vars = s.vars := rfl
@[simp] theorem State.resetBlock_halted : (s.resetBlock).halted = s.halted := rfl
@[simp] theorem State.resetBlock_schedule : (s.resetBlock).schedule = s.schedule := rfl

end Sys2Proof.Machine
end

