-- ==== Sys2Proof/Laws/Flags.lean ====
section
/-! SUPPORT. The values of STATUS that the events of the block leave. -/

namespace Sys2Proof.Machine

/-- STATUS is a function of its four bits. -/
theorem State.statusWord_of {s : State} {b d e l : Bool} (hb : s.busy = b) (hd : s.done = d) (he : s.errSym = e)
    (hl : s.errLen = l) :
    s.statusWord = (BitVec.ofBool l ++ BitVec.ofBool e ++ BitVec.ofBool d ++ BitVec.ofBool b).setWidth 32 := by
  subst hb hd he hl
  rfl

@[simp] theorem State.statusWord_startCommand (s : State) (w : Word) : (s.startCommand w).statusWord = 0x1#32 :=
  (State.statusWord_of (b := true) (d := false) (e := false) (l := false) rfl rfl rfl rfl).trans (by decide)

@[simp] theorem State.statusWord_statusDone (s : State) : s.statusDone.statusWord = 0x2#32 :=
  (State.statusWord_of (b := false) (d := true) (e := false) (l := false) rfl rfl rfl rfl).trans (by decide)

@[simp] theorem State.statusWord_invalidSymbol (s : State) : (s.endInError .invalidSymbol).statusWord = 0x6#32 :=
  (State.statusWord_of (b := false) (d := true) (e := true) (l := false) rfl rfl rfl rfl).trans (by decide)

@[simp] theorem State.statusWord_lengthError (s : State) : (s.endInError .lengthError).statusWord = 0xA#32 :=
  (State.statusWord_of (b := false) (d := true) (e := false) (l := true) rfl rfl rfl rfl).trans (by decide)

@[simp] theorem State.statusWord_resetBlock (s : State) : s.resetBlock.statusWord = 0x0#32 :=
  (State.statusWord_of (b := false) (d := false) (e := false) (l := false) rfl rfl rfl rfl).trans (by decide)

@[simp] theorem State.statusWord_endWithResult (s : State) (r : List Byte) : (s.endWithResult r).statusWord = 0x2#32 :=
  State.statusWord_statusDone _

end Sys2Proof.Machine
end

