-- ==== Sys2Proof/Laws/Memory.lean ====
section
/-! SUPPORT. The laws of a buffer: a read after a write, the canonical form, the bound on the indices, and that two buffers
in canonical form with the same cells are the same data. -/

namespace Sys2Proof.Machine

@[simp] theorem Memory.read_nil (a : Nat) : Memory.read [] a = none := rfl

@[simp] theorem Memory.read_write_self (m : Memory) (a : Nat) (v : Byte) :
    Memory.read (Memory.write m a v) a = some v := by
  induction m with
  | nil => simp [Memory.write, Memory.read]
  | cons c m ih =>
    simp only [Memory.write]
    split
    · simp [Memory.read]
    · split
      · simp [Memory.read]
      · simp [Memory.read, *]

theorem Memory.read_write_of_ne (m : Memory) {a b : Nat} (v : Byte) (h : b ≠ a) :
    Memory.read (Memory.write m a v) b = Memory.read m b := by
  induction m with
  | nil => simp [Memory.write, Memory.read, h]
  | cons c m ih =>
    simp only [Memory.write]
    split
    · simp [Memory.read, h]
    · split
      · next h' => subst h'; simp [Memory.read, h]
      · simp [Memory.read, ih]

/-- The indices of a written buffer are those it had and the one written. -/
theorem Memory.mem_write (m : Memory) (a : Nat) (v : Byte) {c : Host.Cell} (h : c ∈ Memory.write m a v) :
    c = (a, v) ∨ c ∈ m := by
  induction m with
  | nil => simpa [Memory.write] using h
  | cons d m ih =>
    simp only [Memory.write] at h
    split at h
    · simpa using h
    · split at h
      · rcases List.mem_cons.1 h with rfl | h
        · exact .inl rfl
        · exact .inr (List.mem_cons_of_mem _ h)
      · rcases List.mem_cons.1 h with rfl | h
        · exact .inr (List.mem_cons_self ..)
        · exact (ih h).imp id (List.mem_cons_of_mem _)

/-- A write keeps the canonical form. -/
theorem Memory.wf_write {m : Memory} (h : Memory.wf m) (a : Nat) (v : Byte) : Memory.wf (Memory.write m a v) := by
  induction m with
  | nil => simp [Memory.write, Memory.wf]
  | cons c m ih =>
    obtain ⟨hc, hm⟩ := List.pairwise_cons.1 h
    simp only [Memory.write]
    split
    · next hlt =>
      refine List.pairwise_cons.2 ⟨fun d hd => ?_, h⟩
      rcases List.mem_cons.1 hd with rfl | hd
      · exact hlt
      · exact hlt.trans (hc d hd)
    · split
      · next heq => subst heq; exact List.pairwise_cons.2 ⟨hc, hm⟩
      · refine List.pairwise_cons.2 ⟨fun d hd => ?_, ih hm⟩
        rcases Memory.mem_write m a v hd with rfl | hd
        · show c.1 < a
          omega
        · exact hc d hd

/-- A write below the depth keeps every index below the depth. -/
theorem Memory.within_write {m : Memory} {depth a : Nat} (h : Memory.within m depth = true) (ha : a < depth) (v : Byte) :
    Memory.within (Memory.write m a v) depth = true := by
  simp only [Memory.within, List.all_eq_true, decide_eq_true_eq] at h ⊢
  intro c hc
  rcases Memory.mem_write m a v hc with rfl | hc
  · exact ha
  · exact h c hc

/-- What a run of writes does: the cells from `a` on hold the values written, every other cell what it held. -/
theorem Memory.read_writeFrom (m : Memory) (a : Nat) (r : List Byte) (j : Nat) :
    Memory.read (Memory.writeFrom m a r) j =
      if a ≤ j ∧ j < a + r.length then r[j - a]? else Memory.read m j := by
  induction r generalizing m a with
  | nil => simp [Memory.writeFrom, show ¬ (a ≤ j ∧ j < a) by omega]
  | cons v r ih =>
    rw [Memory.writeFrom, ih]
    rcases Nat.lt_trichotomy j a with h | rfl | h
    · rw [if_neg (by omega), if_neg (by omega), Memory.read_write_of_ne m v (by omega)]
    · simp
    · by_cases hj : j < a + 1 + r.length
      · rw [if_pos (by omega), if_pos (by simp; omega), show j - a = (j - (a + 1)) + 1 by omega, List.getElem?_cons_succ]
      · rw [if_neg (by omega), if_neg (by simp; omega), Memory.read_write_of_ne m v (by omega)]

theorem Memory.wf_writeFrom {m : Memory} (h : Memory.wf m) (a : Nat) (r : List Byte) :
    Memory.wf (Memory.writeFrom m a r) := by
  induction r generalizing m a with
  | nil => exact h
  | cons v r ih => exact ih (Memory.wf_write h a v) (a + 1)

theorem Memory.within_writeFrom {m : Memory} {depth a : Nat} (h : Memory.within m depth = true) (r : List Byte)
    (hr : a + r.length ≤ depth) : Memory.within (Memory.writeFrom m a r) depth = true := by
  induction r generalizing m a with
  | nil => exact h
  | cons v r ih =>
    simp only [List.length_cons] at hr
    exact ih (Memory.within_write h (by omega) v) (by omega)

theorem Memory.read_isSome_iff_mem (m : Memory) (a : Nat) : (Memory.read m a).isSome = true ↔ ∃ v, (a, v) ∈ m := by
  induction m with
  | nil => simp
  | cons c m ih =>
    obtain ⟨i, b⟩ := c
    by_cases h : a = i
    · subst h
      simp [Memory.read]
    · simp [Memory.read, h, ih]

/-- A cell at or beyond the depth is never listed. -/
theorem Memory.read_eq_none_of_within {m : Memory} {depth a : Nat} (h : Memory.within m depth = true) (ha : depth ≤ a) :
    Memory.read m a = none := by
  rw [← Option.not_isSome_iff_eq_none, Memory.read_isSome_iff_mem]
  rintro ⟨v, hv⟩
  simp only [Memory.within, List.all_eq_true, decide_eq_true_eq] at h
  have := h _ hv
  simp only at this
  omega

/-- Two buffers in canonical form whose cells read the same are equal data. -/
theorem Memory.ext_of_wf {m n : Memory} (hm : Memory.wf m) (hn : Memory.wf n)
    (h : ∀ a, Memory.read m a = Memory.read n a) : m = n := by
  induction m generalizing n with
  | nil =>
    cases n with
    | nil => rfl
    | cons d n => simpa [Memory.read] using h d.1
  | cons c m ih =>
    cases n with
    | nil => simpa [Memory.read] using h c.1
    | cons d n =>
      obtain ⟨hc, hm⟩ := List.pairwise_cons.1 hm
      obtain ⟨hd, hn⟩ := List.pairwise_cons.1 hn
      have low : ∀ (k : Memory) (x : Host.Cell), (∀ y ∈ k, x.1 < y.1) → ∀ a, a ≤ x.1 → Memory.read k a = none := by
        intro k x hk a ha
        rw [← Option.not_isSome_iff_eq_none, Memory.read_isSome_iff_mem]
        rintro ⟨v, hv⟩
        have := hk _ hv
        simp only at this
        omega
      have heads : c.1 = d.1 := by
        have h1 := h c.1
        have h2 := h d.1
        simp only [Memory.read, if_true] at h1 h2
        by_contra hne
        rw [if_neg hne] at h1
        rw [if_neg (Ne.symm hne)] at h2
        rcases Nat.lt_or_gt_of_ne hne with hlt | hgt
        · rw [low n d hd c.1 hlt.le] at h1; simp at h1
        · rw [low m c hc d.1 (Nat.le_of_lt hgt)] at h2; simp at h2
      have vals : c.2 = d.2 := by
        have h1 := h c.1
        simpa [Memory.read, heads] using h1
      have tails : m = n := by
        refine ih hm hn fun a => ?_
        by_cases ha : a = c.1
        · rw [ha, low m c hc _ le_rfl, low n d hd _ heads.le]
        · have h1 := h a
          simpa [Memory.read, ha, heads ▸ ha] using h1
      rw [Prod.ext heads vals, tails]

end Sys2Proof.Machine
end

