-- ==== Sys2Proof/Laws/Ops.lean ====
section
/-! SUPPORT. What each shared operation can do, said once: the operands of a command, its completion, the host's actions and
statements, a turn, a step. -/

namespace Sys2Proof.Machine

/-! The platform's placement of the units (20_memory.md R51). -/

theorem blockBase_injective {sp sp' : Space} {i j : Nat} (h : Config.blockBase sp i = Config.blockBase sp' j) :
    sp = sp' ∧ i = j := by
  have h := Config.placement.injective h
  cases sp <;> cases sp' <;> simp only [Config.unitNumber] at h <;> simp <;> omega

@[simp] theorem mem_allUnits (p : Params) (sp : Space) (i : Nat) : (sp, i) ∈ allUnits p ↔ i < spaceSize p sp := by
  cases sp <;> simp [allUnits, spaceSize]

/-- A unit that exists is found at its address. -/
theorem unitAt_blockBase {p : Params} {sp : Space} {i : Nat} (hi : i < spaceSize p sp) :
    unitAt p (Config.blockBase sp i) = some (sp, i) := by
  unfold unitAt
  cases hf : (allUnits p).find? fun u => Config.blockBase u.1 u.2 == Config.blockBase sp i with
  | none => simpa using List.find?_eq_none.1 hf (sp, i) ((mem_allUnits ..).2 hi)
  | some u =>
    obtain ⟨h1, h2⟩ := blockBase_injective (by simpa using List.find?_some hf)
    simp [Prod.ext_iff, h1, h2]

/-! The operands of a command. -/

@[simp] theorem length_cellsFrom (m : Memory) (i n d : Nat) : (cellsFrom m i n d).1.length = n := by
  induction n generalizing i d with
  | zero => rfl
  | succ n ih => simp only [cellsFrom]; split <;> simp [ih]

@[simp] theorem State.length_input (s : State) : s.input.length = s.len := length_cellsFrom ..

/-- Reading cells that are all known draws no free value and gives the cells. -/
theorem cellsFrom_known {m : Memory} {i n : Nat} (h : ∀ k, i ≤ k → k < i + n → (Memory.read m k).isSome = true) (d : Nat) :
    (cellsFrom m i n d).2 = d ∧ ∀ k, k < n → (cellsFrom m i n d).1[k]? = Memory.read m (i + k) := by
  induction n generalizing i with
  | zero => exact ⟨rfl, fun k hk => absurd hk (Nat.not_lt_zero k)⟩
  | succ n ih =>
    obtain ⟨b, hb⟩ := Option.isSome_iff_exists.1 (h i le_rfl (by omega))
    obtain ⟨h1, h2⟩ := ih (i := i + 1) fun k hk hk' => h k (by omega) (by omega)
    simp only [cellsFrom, hb]
    refine ⟨h1, fun k hk => ?_⟩
    cases k with
    | zero => simp [hb]
    | succ k => rw [List.getElem?_cons_succ, h2 k (by omega), show i + 1 + k = i + (k + 1) by omega]

/-- Two buffers that agree on the cells read give the same cells and the same draws. -/
theorem cellsFrom_congr {m m' : Memory} {i n : Nat} (h : ∀ k, i ≤ k → k < i + n → Memory.read m k = Memory.read m' k)
    (d : Nat) : cellsFrom m i n d = cellsFrom m' i n d := by
  induction n generalizing i d with
  | zero => rfl
  | succ n ih =>
    have hd : ∀ d, cellsFrom m (i + 1) n d = cellsFrom m' (i + 1) n d :=
      fun d => ih (fun k hk hk' => h k (by omega) (by omega)) d
    simp only [cellsFrom, h i le_rfl (by omega), hd]

/-! The end of a command. -/

@[simp] theorem State.setOutLen_outBuf (n : Nat) (s : State) : (s.setOutLen n).outBuf = s.outBuf := by
  unfold State.setOutLen; split <;> rfl

/-- OUT_LEN is the number of units of the result, where that fits. -/
theorem State.setOutLen_of_lt {n : Nat} (h : n < 2 ^ 32) (s : State) :
    s.setOutLen n = { s with outLen := BitVec.ofNat 32 n } := if_pos h

/-- OUT_LEN is never above the number of units of the result: a free value stands there only if none of 32 bits can be. -/
theorem State.setOutLen_outLen_le (n : Nat) (s : State) : (s.setOutLen n).outLen.toNat ≤ n := by
  unfold State.setOutLen
  split
  · exact (BitVec.toNat_ofNat n 32).trans_le (Nat.mod_le n _)
  · next h => exact (Config.any32 s.draws).isLt.le.trans (Nat.le_of_not_lt h)

/-- Everything that the end of a command with a result changes. -/
theorem State.endWithResult_eq (r : List Byte) (s : State) :
    s.endWithResult r =
      { s with outBuf := Memory.writeFrom s.outBuf 0 r, busy := false, done := true, errSym := false, errLen := false,
               outLen := (s.setOutLen r.length).outLen, draws := (s.setOutLen r.length).draws } := by
  unfold State.endWithResult State.setOutLen
  split <;> rfl

/-- Everything that a completion step can do: a length error, InvalidSymbol, or a result. -/
theorem State.complete_cases (f : List Byte → Option (List Byte)) (s : State) :
    (s.params.inDepth < s.len ∧ s.complete f = s.endInError .lengthError) ∨
    (s.len ≤ s.params.inDepth ∧ f s.input = none ∧ s.complete f = s.afterInput.endInError .invalidSymbol) ∨
    (∃ r, s.len ≤ s.params.inDepth ∧ f s.input = some r ∧ s.complete f = s.afterInput.endWithResult r) := by
  unfold State.complete
  split
  · next h => exact .inl ⟨h, rfl⟩
  · next h =>
    cases hf : f s.input with
    | none => exact .inr (.inl ⟨Nat.le_of_not_lt h, rfl, rfl⟩)
    | some r => exact .inr (.inr ⟨r, Nat.le_of_not_lt h, rfl, rfl⟩)

/-! The host's actions. -/

/-- A host's read of a cell moves at most the count of free values. -/
theorem State.readCell_after (m : Memory) (i : Nat) (s : State) :
    (s.readCell m i).2 = s ∨ (s.readCell m i).2 = { s with draws := s.draws + 1 } := by
  unfold State.readCell
  split
  · exact .inl rfl
  · exact .inr rfl

/-- Everything that a host action can leave of the state, when it is not refused: the state as it was, but for the count of
free values; a command started; IN_LEN or a cell of IN written; or the block reset. -/
theorem hostAction_cases {a : HostAction} {s t : State} (h : (hostAction a s).after = some t) :
    t = s ∨ t = { s with draws := s.draws + 1 } ∨
    (∃ w, a = .regWrite 0 w ∧ s.busy = false ∧ t = s.startCommand w) ∨
    (∃ v, a = .regWrite 1 v ∧ s.busy = false ∧ t = { s with inLen := v }) ∨
    (∃ i v, a = .inWrite i v ∧ i < s.params.inDepth ∧ s.busy = false ∧
      t = { s with inBuf := Memory.write s.inBuf i v }) ∨
    (a = .reset ∧ t = s.resetBlock) := by
  cases a with
  | regWrite n v =>
    simp only [hostAction] at h
    unfold regWrite at h
    split at h
    · cases hb : s.busy <;> simp_all [Reply.after]
    · cases hb : s.busy <;> simp_all [Reply.after]
    · split at h <;> simp_all [Reply.after]
  | regRead n =>
    simp only [hostAction] at h
    unfold regRead at h
    split at h
    · exact .inl (Option.some.inj h).symm
    · exact .inl (Option.some.inj h).symm
    · exact .inl (Option.some.inj h).symm
    · exact .inl (Option.some.inj h).symm
    · split at h
      · exact .inl (Option.some.inj h).symm
      · simp [Reply.after] at h
  | inWrite i v =>
    simp only [hostAction, inWrite] at h
    split at h
    · cases hb : s.busy <;> simp_all [Reply.after]
    · simp [Reply.after] at h
  | inRead i =>
    simp only [hostAction, inRead] at h
    split at h
    · obtain rfl : (s.readCell s.inBuf i).2 = t := by simpa [Reply.after] using h
      rcases State.readCell_after s.inBuf i s with h | h
      · exact .inl h
      · exact .inr (.inl h)
    · simp [Reply.after] at h
  | outRead j =>
    simp only [hostAction, outRead] at h
    split at h
    · split at h
      · exact .inr (.inl (by simpa [Reply.after, State.draw] using h.symm))
      · obtain rfl : (s.readCell s.outBuf j).2 = t := by simpa [Reply.after] using h
        rcases State.readCell_after s.outBuf j s with h | h
        · exact .inl h
        · exact .inr (.inl h)
    · simp [Reply.after] at h
  | outWrite j v =>
    simp only [hostAction, outWrite] at h
    split at h <;> simp_all [Reply.after]
  | reset => exact .inr (.inr (.inr (.inr (.inr ⟨rfl, by simpa [hostAction, Reply.after] using h.symm⟩))))

/-- An access of the admitted shape at the ports is the host action on its unit; every other is refused. -/
theorem portAccess_eq (sp : Space) (index offset : Nat) (acc : Access) (s : State) :
    (portAccess sp index offset acc s = hostAction (unitAction sp index acc.dir) s ∧ acc.fits sp = true ∧ offset = 0) ∨
    (∃ r, portAccess sp index offset acc s = .refused r ∧ ¬ (acc.fits sp = true ∧ offset = 0)) := by
  unfold portAccess
  split
  · next h => exact .inr ⟨_, rfl, by simp [Access.fits, h]⟩
  · split
    · next h => exact .inr ⟨_, rfl, by simp [Access.fits, h]⟩
    · split
      · next h => exact .inr ⟨_, rfl, fun hc => h hc.2⟩
      · exact .inl ⟨rfl, by simp_all [Access.fits]⟩

/-! A statement and a turn of the host. -/

/-- The end of a statement answers next only after an action that was not refused, and adds to it a variable's new value and
the host's new position. -/
theorem endStmt_next {t : Fin 8} {r : Reply} {u : State} (h : endStmt t r = .next u) :
    ∃ s vs, r.after = some s ∧ u = { s with vars := vs, hostPc := s.hostPc + 1 } := by
  cases r with
  | done s => exact ⟨s, s.vars, rfl, by simpa [endStmt, State.goto] using h.symm⟩
  | value v s => exact ⟨s, s.vars.set t v, rfl, by simpa [endStmt, State.setVar, State.goto] using h.symm⟩
  | refused r => simp [endStmt] at h

/-- A statement that answers next has performed a host action, or has only moved the host on, or has ended its program. -/
theorem hostStmt_next {st : HostStmt} {s u : State} (h : hostStmt st s = .next u) :
    (∃ a t vs, (hostAction a s).after = some t ∧ u = { t with vars := vs, hostPc := t.hostPc + 1 } ∧
      (a = .reset → st = .rst)) ∨
    (∃ pc, u = { s with hostPc := pc }) ∨ u = { s with halted := true } := by
  have viaAction : ∀ {t : Fin 8} {a : HostAction}, endStmt t (hostAction a s) = .next u → (a = .reset → st = .rst) →
      ∃ a t vs, (hostAction a s).after = some t ∧ u = { t with vars := vs, hostPc := t.hostPc + 1 } ∧
        (a = .reset → st = .rst) := by
    intro t a h hr
    obtain ⟨t', vs, h1, h2⟩ := endStmt_next h
    exact ⟨a, t', vs, h1, h2, hr⟩
  have viaPort : ∀ {t : Fin 8} {sp : Space} {i o : Nat} {acc : Access}, endStmt t (portAccess sp i o acc s) = .next u →
      ∃ a t vs, (hostAction a s).after = some t ∧ u = { t with vars := vs, hostPc := t.hostPc + 1 } ∧
        (a = .reset → st = .rst) := by
    intro t sp i o acc h
    rcases portAccess_eq sp i o acc s with ⟨he, -, -⟩ | ⟨r, he, -⟩
    · refine viaAction (he ▸ h) fun hr => ?_
      unfold unitAction at hr
      split at hr <;> split at hr <;> simp at hr
    · simp [he, endStmt] at h
  cases st with
  | wrr slot src => exact .inl (viaAction h (by simp))
  | rdr t slot => exact .inl (viaAction h (by simp))
  | wri idx src => exact .inl (viaAction h (by simp))
  | rdi t idx => exact .inl (viaAction h (by simp))
  | rdo t idx => exact .inl (viaAction h (by simp))
  | rst => exact .inl (viaAction (t := 0) (a := .reset) h fun _ => rfl)
  | bit1 t k label => exact .inr (.inl ⟨_, by simpa [hostStmt, State.goto] using h.symm⟩)
  | halt => exact .inr (.inr (by simpa [hostStmt] using h.symm))
  | wro idx src => exact .inl (viaAction h (by simp))
  | port t sp index offset acc => exact .inl (viaPort h)
  | sys t addr acc =>
    simp only [hostStmt, systemAccess] at h
    split at h
    · exact .inl (viaPort h)
    · simp [endStmt] at h

/-! A step. -/

/-- `exec` is the completion step of the command's result function, so it always answers next. -/
theorem exec_eq_complete (i : Instr) : ∃ f, ∀ s, exec i s = .next (State.complete f s) := by
  cases i with
  | encode ign => exact ⟨_, fun _ => rfl⟩
  | decode ign => exact ⟨_, fun _ => rfl⟩
  | idx2sym ign => exact ⟨_, fun _ => rfl⟩
  | sym2idx ign => exact ⟨_, fun _ => rfl⟩

/-- Everything that a step which answers next can be: an idle engine's turn, a busy engine's completion, a turn of a host
whose program has ended, or a statement of the host. -/
theorem step_cases {s t : State} (h : step s = .next t) :
    (s.nextTurn.1 = .engine ∧ s.busy = false ∧ t = s.takeTurn) ∨
    (s.nextTurn.1 = .engine ∧ s.busy = true ∧ exec s.command s.takeTurn = .next t) ∨
    (s.nextTurn.1 = .host ∧ s.hostNext = none ∧ t = s.takeTurn) ∨
    (∃ st, s.nextTurn.1 = .host ∧ s.hostNext = some st ∧ hostStmt st s.takeTurn = .next t) := by
  unfold step at h
  split at h
  · next ha =>
    cases hb : s.busy with
    | false => exact .inl ⟨ha, rfl, by simpa [hb] using h.symm⟩
    | true => exact .inr (.inl ⟨ha, rfl, by simpa [hb] using h⟩)
  · next ha =>
    unfold hostTurn at h
    cases hn : s.hostNext with
    | none =>
      have hn' : s.takeTurn.hostNext = none := hn
      exact .inr (.inr (.inl ⟨ha, rfl, by simpa [hn'] using h.symm⟩))
    | some st =>
      have hn' : s.takeTurn.hostNext = some st := hn
      exact .inr (.inr (.inr ⟨st, ha, rfl, by simpa [hn'] using h⟩))

/-! A run. -/

@[simp] theorem runSteps_zero (s : State) : runSteps 0 s = .next s := rfl

/-- A run of one step more that answers next begins with a step that answers next. -/
theorem runSteps_succ {n : Nat} {s t : State} :
    runSteps (n + 1) s = .next t ↔ ∃ u, step s = .next u ∧ runSteps n u = .next t := by
  rw [runSteps]
  cases hs : step s with
  | next u => simp
  | fault r => simp
  | refused r => simp

end Sys2Proof.Machine
end

