-- ==== Sys2Proof/Laws/PerInstr.lean ====
section
/-! SUPPORT. A fact of every command as syntax, one lemma per constructor. -/

namespace Sys2Proof.Laws

/-- The word written for a command holds its OP and IGN in their fields and 0 in the reserved bits (spec/30_encoding.md
R70). -/
def WordFields.Statement (i : Instr) : Prop :=
  opField (encodeCmd i) = i.op ∧ ignField (encodeCmd i) = i.ign ∧ plainWord (encodeCmd i) = true

theorem WordFields.encode (ign : Bool) : WordFields.Statement (.encode ign) := by
  cases ign <;> exact ⟨by decide, by decide, by decide⟩

theorem WordFields.decode (ign : Bool) : WordFields.Statement (.decode ign) := by
  cases ign <;> exact ⟨by decide, by decide, by decide⟩

theorem WordFields.idx2sym (ign : Bool) : WordFields.Statement (.idx2sym ign) := by
  cases ign <;> exact ⟨by decide, by decide, by decide⟩

theorem WordFields.sym2idx (ign : Bool) : WordFields.Statement (.sym2idx ign) := by
  cases ign <;> exact ⟨by decide, by decide, by decide⟩

end Sys2Proof.Laws
end

