-- ==== Sys2Proof/Tests/Slice0.lean ====
section
/-! SUPPORT. The model's own tests: the checks of WellFormed, the command words, one or two vectors of spec/95_test_vectors.md
for each command and for the host's side, and a witness for the hypotheses of each statement. -/

namespace Sys2Proof.Tests

open Sys2Proof Sys2Proof.Machine

/-! ## The checks refuse ill-formed terms -/

theorem test_params_legal : Params.legal ⟨16, 26⟩ = true := by decide
theorem test_params_no_input_cell : Params.legal ⟨0, 26⟩ = false := by decide
theorem test_params_short_output : Params.legal ⟨16, 25⟩ = false := by decide
theorem test_plain_word : plainWord 0x7 = true ∧ plainWord 0x8 = false ∧ plainWord 0x80000000 = false := by decide
theorem test_every_command_wellFormed :
    [Instr.encode true, .decode false, .idx2sym true, .sym2idx false].all Instr.wellFormed = true := by decide

/-- A statement checked at the depths 16 and 26 in a program of 5 statements. -/
def ok (st : HostStmt) : Bool := st.wellFormed ⟨16, 26⟩ 5

theorem test_slots : ok (.wrr 7 (.imm 0)) = true ∧ ok (.wrr 8 (.imm 0)) = false ∧ ok (.rdr 0 7) = true ∧
    ok (.rdr 0 8) = false := by decide
theorem test_cells : ok (.wri 15 (.var 1)) = true ∧ ok (.wri 16 (.var 1)) = false ∧ ok (.rdi 0 15) = true ∧
    ok (.rdi 0 16) = false ∧ ok (.rdo 0 25) = true ∧ ok (.rdo 0 26) = false ∧ ok (.wro 25 (.imm 1)) = true ∧
    ok (.wro 26 (.imm 1)) = false := by decide
theorem test_labels : ok (.bit1 0 31 4) = true ∧ ok (.bit1 0 31 5) = false ∧ ok .rst = true ∧ ok .halt = true := by decide
theorem test_port_shapes : ok (.port 0 .reg 7 0 ⟨32, 1, .read⟩) = true ∧ ok (.port 0 .reg 8 0 ⟨32, 1, .read⟩) = false ∧
    ok (.port 0 .reg 7 2 ⟨32, 1, .read⟩) = false ∧ ok (.port 0 .reg 7 0 ⟨16, 1, .read⟩) = false ∧
    ok (.port 0 .inBuf 0 0 ⟨8, 4, .read⟩) = false ∧ ok (.port 0 .outBuf 0 0 ⟨32, 1, .read⟩) = false := by decide
theorem test_sys_shape (addr : Nat) : ok (.sys 0 addr ⟨7, 1, .read⟩) = false := by
  simp only [ok, HostStmt.wellFormed]
  split
  · next u _ =>
    obtain ⟨sp, i⟩ := u
    cases sp <;> rfl
  · rfl

/-! ## Command words, written from 30_encoding.md R70 to R72: 29 reserved bits, IGN, OP -/

theorem test_word_encode : decodeCmd 0b00000000000000000000000000000_0_00#32 = .encode false := by decide
theorem test_word_encode_ign : decodeCmd 0b00000000000000000000000000000_1_00#32 = .encode true := by decide
theorem test_word_decode : decodeCmd 0b00000000000000000000000000000_0_01#32 = .decode false := by decide
theorem test_word_decode_ign : decodeCmd 0b11111111111111111111111111111_1_01#32 = .decode true := by decide
theorem test_word_idx2sym : decodeCmd 0b00000000000000000000000000000_0_10#32 = .idx2sym false := by decide
theorem test_word_idx2sym_ign : decodeCmd 0b10000000000000000000000000001_1_10#32 = .idx2sym true := by decide
theorem test_word_sym2idx : decodeCmd 0b00000000000000000000000000000_0_11#32 = .sym2idx false := by decide
theorem test_word_sym2idx_ign : decodeCmd 0b00000000000000000000000000000_1_11#32 = .sym2idx true := by decide
theorem test_table_word : decodeTableWord 32 0x5 = some (.decode true) ∧ decodeTableWord 2 3 = some (.sym2idx false) ∧
    decodeTableWord 33 0 = none := by decide

/-! ## One step of each command, from spec/95_test_vectors.md -/

/-- An idle block after reset with `x` in IN and its length in IN_LEN. -/
def loaded (x : List Byte) : State :=
  { State.reset with inBuf := Memory.writeFrom [] 0 x, inLen := BitVec.ofNat 32 x.length }

/-- STATUS, OUT_LEN and the known cells of OUT after a step. -/
def result (r : Host.Outcome State Fault Refusal) : Option (Word × Word × List Byte) :=
  match r with
  | .next t => some (t.statusWord, t.outLen, t.outBuf.map Prod.snd)
  | _ => none

/-- The result of carrying out a command word on an input. -/
def run (w : Nat) (x : List Byte) : Option (Word × Word × List Byte) := result (step ((loaded x).withFetchWord 32 w))

/-- EV9: ENCODE of 12 34 is "04jn". -/
theorem test_encode : run 0x0 [0x12, 0x34] = some (0x2, 4, [0x30, 0x34, 0x6A, 0x6E]) := by decide
/-- EV6: ENCODE.IGN of FF is "z": the bits of the dropped symbol are lost. -/
theorem test_encode_ign : run 0x4 [0xFF] = some (0x2, 1, [0x7A]) := by decide
/-- DV9: DECODE of "7zz" is 1F FF. -/
theorem test_decode : run 0x1 [0x37, 0x7A, 0x7A] = some (0x2, 2, [0x1F, 0xFF]) := by decide
/-- DV19: DECODE.IGN of "b" is InvalidSymbol, although nothing would be left of it. -/
theorem test_decode_ign_invalid : run 0x5 [0x62] = some (0x6, 0, []) := by decide
/-- A3: IDX2SYM of 20 3F E0 FF 2A is "0z0za". -/
theorem test_idx2sym : run 0x2 [0x20, 0x3F, 0xE0, 0xFF, 0x2A] = some (0x2, 5, [0x30, 0x7A, 0x30, 0x7A, 0x61]) := by decide
/-- A4: IDX2SYM.IGN is the same as IDX2SYM. -/
theorem test_idx2sym_ign : run 0x6 [0x00, 0x0A, 0x1F] = some (0x2, 3, [0x30, 0x61, 0x7A]) := by decide
/-- A6: SYM2IDX of "hjkmnp" is 10 11 12 13 14 15. -/
theorem test_sym2idx : run 0x3 [0x68, 0x6A, 0x6B, 0x6D, 0x6E, 0x70] = some (0x2, 6, [0x10, 0x11, 0x12, 0x13, 0x14, 0x15]) := by
  decide
/-- A10: SYM2IDX of "zzzzb" is InvalidSymbol, and no OUT cell is written. -/
theorem test_sym2idx_invalid : run 0x7 [0x7A, 0x7A, 0x7A, 0x7A, 0x62] = some (0x6, 0, []) := by decide
/-- W4: IN_LEN = FFFFFFFF is a length error. -/
theorem test_length_error : result (step ({ State.reset with inLen := 0xFFFFFFFF }.withFetchWord 32 3)) = some (0xA, 0, []) := by
  decide
/-- W11: the cells beyond the new result keep the old one. -/
theorem test_old_cells_kept : result (step ({ loaded [0xFF] with
    outBuf := [(0, 0x30), (1, 0x32), (2, 0x30)] }.withFetchWord 32 4)) = some (0x2, 1, [0x7A, 0x32, 0x30]) := by decide

/-! ## The host's side -/

/-- W2: a CMD write of FFFFFFFD starts DECODE.IGN, and CMD reads back as 5. -/
theorem test_cmd_write : hostAction (.regRead 0) (State.reset.startCommand 0xFFFFFFFD) =
    .value 0x5 (State.reset.startCommand 0xFFFFFFFD) := by decide
/-- W14, W15: a cell reads back, and a cell at the depth is refused. -/
theorem test_in_cells : hostAction (.inRead 3) { State.reset with inBuf := [(3, 0xAB)] } =
      .value 0xAB { State.reset with inBuf := [(3, 0xAB)] } ∧
    hostAction (.inRead 16) State.reset = .refused .noSuchCell ∧ hostAction (.regRead 8) State.reset = .refused .noSuchSlot ∧
    hostAction (.outRead 26) State.reset = .refused .noSuchCell := by decide
/-- P4's first lines: LOADIN, a mnemonic and WAIT, with the label of the WAIT its own position. -/
theorem test_assemble : assemble [.loadin [0xFF], .cmd (.encode false), .wait, .bit1 7 2 9, .label 9, .stmt .halt] =
    some [.wri 0 (.imm 0xFF), .wrr 1 (.imm 1), .wrr 0 (.imm 0), .rdr 7 2, .bit1 7 0 3, .bit1 7 2 6, .halt] := by decide
/-- Log entry 12: the first of two lines of one label counts. -/
theorem test_assemble_two_labels : assemble [.label 1, .wait, .label 1, .bit1 0 3 1] =
    some [.rdr 7 2, .bit1 7 0 0, .bit1 0 3 0] := by decide
/-- 40_alphabet.md R101's codes, of a string as R78 writes one. -/
theorem test_loadText : assemble [.loadText ['0', 'A', 'z']] =
    some [.wri 0 (.imm 0x30), .wri 1 (.imm 0x41), .wri 2 (.imm 0x7A), .wrr 1 (.imm 3)] := by decide
theorem test_assemble_no_label : assemble [.bit1 0 0 1, .label 2] = none := by decide

/-! ## Witnesses: the hypotheses of each statement are met -/

/-- A busy block about to carry out ENCODE of [FF], the engine's turn next. -/
def running : State := (loaded [0xFF]).withFetchWord 32 0
/-- The same with a host that polls STATUS, its turn next. -/
def polling : State := { running with prog := [.rdr 7 2, .bit1 7 0 0], schedule := [.host, .host, .engine] }

theorem witness_DecodeAndEncodeAgree : Instr.wellFormed (.sym2idx true) = true := by decide
theorem witness_ReservedBitsAreIgnored : (0x5#32).extractLsb' 0 3 = (0xFFFFFFFD#32).extractLsb' 0 3 := by decide
theorem witness_StepRunsTheCommandHeldInCmd :
    running.nextTurn.1 = .engine ∧ running.busy = true ∧ decodeCmd running.cmdWord = .encode false ∧
    { State.reset with schedule := [.engine] }.nextTurn.1 = .engine ∧ { State.reset with schedule := [.engine] }.busy = false := by
  decide
theorem witness_AlphabetIsABijection : symbolToIndex 0x61 = some 10 ∧ isSymbol 0x30 = true ∧ isSymbol 0x7A = true ∧
    isSymbol 0x69 = false := by decide
theorem witness_OtherCharactersAreRejected : 0x41 ≤ (0x41#8).toNat ∧ (0x5A#8).toNat ≤ 0x5A ∧ 0x80 ≤ (0x80#8).toNat ∧
    0x6F#8 ∈ [0x62#8, 0x69#8, 0x6C#8, 0x6F#8, 0x00#8] ∧ (0x2F#8).toNat < 0x30 ∧ 0x3A ≤ (0x3A#8).toNat ∧
    (0x60#8).toNat ≤ 0x60 ∧ 0x7B ≤ (0x7B#8).toNat := by decide
theorem witness_EncodeLengthLaw : ([0x00#8] : List Byte).length % 5 ≠ 0 ∧ (List.replicate 5 0x00#8).length % 5 = 0 := by decide
theorem witness_DecodeLengthLaw : (∀ c ∈ List.replicate 8 0x7A#8, isSymbol c = true) ∧ (List.replicate 8 0x7A#8).length % 8 = 0 ∧
    (∀ c ∈ [0x30#8], isSymbol c = true) ∧ ([0x30#8] : List Byte).length % 8 ≠ 0 := by decide
theorem witness_EncodeIsTheLowDigitsOfTheValue : ([0xFF#8, 0x00#8] : List Byte).length % 5 ≠ 0 := by decide
theorem witness_DecodeIsTheLowBytesOfTheValue : symbolsToIndices [0x30, 0x7A] = some [0, 31] := by decide
theorem witness_DecodeSlicesThePaddedBitstream : symbolsToIndices [0x61] = some [10] := by decide
theorem witness_PartialSymbolHoldsTheTopBits :
    ([] : List Byte).length + 1 = 1 ∧ (([0] : List Byte).length + 1) % 5 = 2 ∧ (([0, 0] : List Byte).length + 1) % 5 = 3 ∧
    (([0, 0, 0] : List Byte).length + 1) % 5 = 4 ∧ ((List.replicate 5 (0 : Byte)).length + 1) % 5 = 1 := by decide
theorem witness_PartialByteHoldsTheTopBits : symbolsToIndices [0x7A] = some [31] ∧ ([0x7A#8] : List Byte).length % 8 ≠ 0 ∧
    symbolsToIndices (List.replicate 7 0x7A) = some (List.replicate 7 31) ∧ (List.replicate 7 0x7A#8).length % 8 ≠ 0 := by decide
theorem witness_DecodeAfterEncodeEveryFlag : (List.replicate 5 0xFF#8).length % 5 = 0 ∧
    ((([] : List Byte).length + 1) % 5 = 1 ∧ 0x1F#8 = 0x1F#8) ∧ ((([0] : List Byte).length + 1) % 5 = 2) ∧
    ((([0, 0] : List Byte).length + 1) % 5 = 3) ∧ ((([0, 0, 0] : List Byte).length + 1) % 5 = 4) := by decide
theorem witness_EncodeAfterDecodeDefault : ∀ c ∈ [0x30#8, 0x61#8, 0x39#8, 0x38#8, 0x37#8], isSymbol c = true := by decide
theorem witness_EncodeAfterDecodeEveryFlag : symbolsToIndices (List.replicate 8 0x7A) = some (List.replicate 8 31) ∧
    (List.replicate 8 0x7A#8).length % 8 = 0 := by decide
theorem witness_OperandsAreTheCellsOfIn : 1 < { loaded [0xFF] with inLen := 2 }.inLen.toNat ∧
    Memory.read (loaded [0xFF]).inBuf 0 = some 0xFF ∧ Memory.read (loaded [0xFF]).inBuf 1 = none := by decide
theorem witness_EncodeCommandWritesItsSymbols : (loaded (List.replicate 16 0)).len ≤ (loaded (List.replicate 16 0)).params.inDepth ∧
    encodedLength 16 false < 2 ^ 32 ∧ 25 < encodedLength 16 false ∧ encodedLength 16 false ≤ 26 := by decide
theorem witness_DecodeCommandWritesItsBytes : (loaded [0x7A, 0x7A]).len ≤ (loaded [0x7A, 0x7A]).params.inDepth ∧
    symbolsToIndices (loaded [0x7A, 0x7A]).input = some [31, 31] ∧ 1 < decodedLength 2 false ∧ decodedLength 2 true ≤ 1 := by decide
theorem witness_Idx2symCommandWritesItsSymbols : (loaded [0xFF]).len ≤ (loaded [0xFF]).params.inDepth ∧ 0 < (loaded [0xFF]).len ∧
    (loaded [0xFF]).input[0]? = some 0xFF := by decide
theorem witness_Sym2idxCommandWritesItsIndices : (loaded [0x7A]).len ≤ (loaded [0x7A]).params.inDepth ∧ 0 < (loaded [0x7A]).len ∧
    (∀ c ∈ (loaded [0x7A]).input, isSymbol c = true) ∧ (loaded [0x7A]).input[0]? = some 0x7A := by decide
theorem witness_InvalidSymbolEndsTheCommandWithNoResult : (∃ ign, Instr.decode true = .decode ign ∨ Instr.decode true = .sym2idx ign) ∧
    (loaded [0x30, 0x42]).len ≤ (loaded [0x30, 0x42]).params.inDepth ∧ (∃ c ∈ (loaded [0x30, 0x42]).input, isSymbol c = false) :=
  ⟨⟨true, .inl rfl⟩, by decide, by decide⟩
theorem witness_LengthErrorEndsEveryCommand : { State.reset with inLen := 17 }.params.inDepth < (17#32).toNat := by decide
theorem witness_CommandLeavesTheRestUnchanged : (loaded [0xFF]).len ≤ 2684354559 ∧
    result (exec (.sym2idx false) (loaded [0xFF])) = some (0x6, 0, []) := by decide
theorem witness_CmdWriteStartsACommand : State.reset.busy = false := rfl
theorem witness_InputsAreLockedWhileBusy : running.busy = true ∧ 15 < running.params.inDepth := by decide
theorem witness_OtherRegisterWrites : State.reset.busy = false ∧ 2 ≤ 2 ∧ 7 ≤ 7 := by decide
theorem witness_InputBufferAccesses : 15 < (loaded [0xFF]).params.inDepth ∧ (loaded [0xFF]).busy = false ∧ running.busy = true ∧
    Memory.read (loaded [0xFF]).inBuf 0 = some 0xFF ∧ Memory.read (loaded [0xFF]).inBuf 15 = none ∧
    (loaded [0xFF]).params.inDepth ≤ 16 := by decide
theorem witness_OutputBufferReads : 25 < running.params.outDepth ∧ running.busy = true ∧ State.reset.busy = false ∧
    Memory.read [(0, 0x30#8)] 0 = some 0x30 ∧ Memory.read State.reset.outBuf 25 = none ∧ running.params.outDepth ≤ 26 := by decide
theorem witness_OutputBufferWritesAreIgnored : 25 < State.reset.params.outDepth ∧ State.reset.params.outDepth ≤ 26 := by decide
theorem witness_SystemAddressReachesItsUnit : 7 < spaceSize State.reset.params .reg ∧
    ∀ (sp : Space) (i : Nat), i < spaceSize State.reset.params sp → Config.blockBase sp i ≠ Config.blockBase .reg 8 := by
  refine ⟨by decide, fun sp i hi h => ?_⟩
  have h := Config.placement.injective h
  cases sp <;> simp only [Config.unitNumber, spaceSize] at h hi <;> omega
theorem witness_HostStatementsPerformTheirActions :
    hostAction (.regWrite 1 5) State.reset = .done { State.reset with inLen := 5 } ∧
    hostAction (.regRead 2) State.reset = .value 0 State.reset ∧
    hostAction (.inWrite 0 ((0x1FF#32).setWidth 8)) State.reset = .done { State.reset with inBuf := [(0, 0xFF)] } ∧
    hostAction (.inRead 0) (loaded [0xFF]) = .value 0xFF (loaded [0xFF]) ∧
    hostAction (.outRead 0) { State.reset with outBuf := [(0, 0x30)] } = .value 0x30 { State.reset with outBuf := [(0, 0x30)] } ∧
    (State.reset.vars[(7 : Fin 8)]).toNat / 2 ^ (31 : Fin 32).val % 2 = 0 ∧
    { State.reset with vars := Vector.replicate 8 0x80000000 }.vars[(7 : Fin 8)].toNat / 2 ^ (31 : Fin 32).val % 2 = 1 ∧
    polling.nextTurn.1 = .host ∧ polling.halted = false ∧ polling.prog[polling.hostPc]? = some (.rdr 7 2) ∧
    { polling with halted := true }.nextTurn.1 = .host ∧ State.reset.nextTurn.1 = .host ∧
    State.reset.prog.length ≤ State.reset.hostPc := by decide
theorem witness_AccessStatementsAndRefusals :
    hostAction (.outWrite 25 ((0x1FF#32).setWidth 8)) State.reset = .done State.reset ∧
    portAccess .reg 1 0 ⟨32, 1, .write 5⟩ State.reset = .done { State.reset with inLen := 5 } ∧
    portAccess .reg 7 0 ⟨32, 1, .read⟩ State.reset = .value 0 State.reset ∧
    portAccess .reg 8 0 ⟨32, 1, .read⟩ State.reset = .refused .noSuchSlot ∧
    hostAction (.regWrite 8 0) State.reset = .refused .noSuchSlot ∧ hostAction (.regRead 8) State.reset = .refused .noSuchSlot ∧
    hostAction (.inWrite 16 0) State.reset = .refused .noSuchCell ∧ hostAction (.inRead 16) State.reset = .refused .noSuchCell ∧
    hostAction (.outRead 26) State.reset = .refused .noSuchCell ∧ hostAction (.outWrite 26 0) State.reset = .refused .noSuchCell := by
  decide
/-- The clauses about system addresses: at the address of a register slot, wherever the platform has placed it. -/
theorem witness_AccessStatementsAndRefusals_sys :
    systemAccess (Config.blockBase .reg 1) ⟨32, 1, .write 5⟩ State.reset = .done { State.reset with inLen := 5 } ∧
    systemAccess (Config.blockBase .reg 7) ⟨32, 1, .read⟩ State.reset = .value 0 State.reset ∧
    systemAccess (Config.blockBase .reg 7) ⟨8, 1, .read⟩ State.reset = .refused .accessWidth := by
  refine ⟨?_, ?_, ?_⟩ <;> rw [systemAccess, unitAt_blockBase (by decide)] <;> rfl
theorem witness_MnemonicsAndPseudoInstructionsExpand : ([0xFF#8] : List Byte)[0]? = some 0xFF ∧
    (Line.run (.decode true)).expand [] 0 = some [.wrr 0 (.imm 5), .rdr 7 2, .bit1 7 0 1] ∧
    (Char.ofNat 0x7F).toNat < 0x80 ∧ (Line.bit1 0 0 4).expand [.wait, .label 4] 9 = some [.bit1 0 0 2] := by decide
theorem witness_LabelsResolveToTheirPositions : Line.label 1 ∉ [Line.wait, .label 0] ∧
    labelPos 0 0 [.wait, .label 0] = some 2 ∧ assemble [.wait, .label 0] = some [.rdr 7 2, .bit1 7 0 0] ∧
    Line.bit1 0 0 1 ∈ [Line.bit1 0 0 1, .label 0] ∧ Line.label 1 ∉ [Line.bit1 0 0 1, .label 0] := by decide
theorem witness_ResetMeetsTheInvariant : Params.legal ⟨1, 2⟩ = true := by decide

/-- `running` is a good state. -/
theorem running_inv : running.Inv where
  depths := by decide
  inWf := by decide
  outWf := by decide
  inWithin := by decide
  outWithin := by decide
  registers := ⟨by decide, by decide, fun _ => by decide⟩
  result := fun j hj => absurd hj (Nat.not_lt_zero j)

theorem witness_EveryStepKeepsTheInvariant : running.Inv ∧ ∃ t, step running = .next t := ⟨running_inv, _, rfl⟩
theorem witness_StatusTakesOnlyLegalValues : running.statusWord ∈ [0#32, 1#32, 2#32, 6#32, 10#32] ∧ ∃ t, step running = .next t :=
  ⟨by decide, _, rfl⟩
theorem witness_FlagsAreWrittenByThreeEventsOnly :
    (∃ t, (hostAction (.regWrite 0 0) State.reset).after = some t ∧ t.statusWord ≠ State.reset.statusWord) ∧
    running.nextTurn.1 = .engine ∧ ∃ t, step running = .next t ∧ t.statusWord ≠ running.statusWord :=
  ⟨⟨_, rfl, by decide⟩, by decide, _, rfl, by decide⟩
theorem witness_HostNeverWritesOut : (hostAction (.outWrite 0 0x41) running).after = some running ∧ HostAction.outWrite 0 0x41 ≠ .reset := by
  decide
theorem witness_HostReadsChangeNothing : hostAction (.regRead 2) running = .value 1 running := by decide
theorem witness_BusyLastsUntilCompletionOrReset : polling.busy = true ∧ polling.nextTurn.1 = .host ∧ polling.hostNext ≠ some .rst ∧
    ∃ t, step polling = .next t := ⟨by decide, by decide, by decide, _, rfl⟩
theorem witness_StartedCommandCompletes : polling.busy = true ∧ programWellFormed polling.params polling.prog = true ∧
    neverResets polling.prog = true := by decide
theorem witness_CompletionIsTheSameAfterAnyHostTurns : polling.busy = true ∧ neverResets polling.prog = true ∧
    polling.schedule = List.replicate 2 .host ++ [.engine] ∧ [Agent.engine].head? ≠ some .host ∧
    (polling.inputKnown ∧ polling.resultFits) ∧ ∃ t, runSteps 2 polling = .next t :=
  ⟨by decide, by decide, by decide, by decide,
    ⟨fun i hi => by
      obtain rfl : i = 0 := Nat.lt_one_iff.1 hi
      decide, by
      show polling.len ≤ 2684354559
      decide⟩, _, rfl⟩
theorem witness_ResultDependsOnlyOnItsOperands : (loaded [0xFF]).params = running.params ∧ (loaded [0xFF]).inLen = running.inLen ∧
    (∀ k, k < (loaded [0xFF]).len → Memory.read (loaded [0xFF]).inBuf k = Memory.read running.inBuf k) ∧
    (loaded [0xFF]).draws = running.draws ∧ loaded [0xFF] ≠ running := ⟨rfl, rfl, fun _ _ => rfl, rfl, by decide⟩
theorem witness_RepeatedCommandGivesTheSameResult : (∀ i, i < 1 → (Memory.read (loaded [0xFF]).inBuf i).isSome = true) ∧
    (loaded [0xFF]).len = 1 ∧ ∃ t, exec (.encode true) (loaded [0xFF]) = .next t := ⟨by decide, by decide, _, rfl⟩
theorem witness_WellFormedProgramIsNeverRefused : programWellFormed polling.params polling.prog = true := by decide

end Sys2Proof.Tests
end

section
/-! SUPPORT. The laws of a command's result: the function of the operands that each command computes, the bound on its
length, what the end of a command leaves of each field, and the branches of the completion step. -/

namespace Sys2Proof.Machine

/-! The result function of a command. -/

/-- What a command computes from its input sequence (`none` is InvalidSymbol): the function that `exec` completes with. -/
def commandResult : Instr → List Byte → Option (List Byte)
  | .encode ign => fun x => some (encodeBytes x ign)
  | .decode ign => fun x => decodeSymbols x ign
  | .idx2sym _ => fun x => some (indicesToSymbols x)
  | .sym2idx _ => symbolsToIndexBytes

/-- Every command is the completion step of its result function. -/
theorem exec_eq_next_complete (i : Instr) (s : State) : exec i s = .next (s.complete (commandResult i)) := by
  cases i <;> rfl

theorem length_encodeBytes_le (b : List Byte) (ign : Bool) : (encodeBytes b ign).length ≤ fullSymbols b.length := by
  have hfull : ((fullIndices b).map symRom).length = fullSymbols b.length := by simp [fullIndices]
  unfold encodeBytes
  split
  · simp only [List.length_tail, hfull]; omega
  · exact hfull.le

theorem length_decodeIndices_le (d : List Index) (ign : Bool) : (decodeIndices d ign).length ≤ fullBytes d.length := by
  have hfull : (fullOutput d).length = fullBytes d.length := length_digits ..
  unfold decodeIndices
  split
  · simp only [List.length_tail, hfull]; omega
  · exact hfull.le

theorem fullSymbols_mono {m n : Nat} (h : m ≤ n) : fullSymbols m ≤ fullSymbols n :=
  Nat.div_le_div_right (by omega)

theorem le_fullSymbols (n : Nat) : n ≤ fullSymbols n := by
  unfold fullSymbols cdiv; omega

theorem fullBytes_le_fullSymbols (n : Nat) : fullBytes n ≤ fullSymbols n := by
  unfold fullBytes fullSymbols cdiv; omega

/-- No command has a longer result than a full ENCODE of its input, which is what OUT has room for (00_scope.md R5). -/
theorem length_commandResult_le {i : Instr} {x r : List Byte} (h : commandResult i x = some r) :
    r.length ≤ fullSymbols x.length := by
  cases i with
  | encode ign =>
    obtain rfl : encodeBytes x ign = r := Option.some.inj h
    exact length_encodeBytes_le x ign
  | decode ign =>
    obtain ⟨d, hd, rfl⟩ := Option.map_eq_some_iff.1 h
    calc (decodeIndices d ign).length
        ≤ fullBytes d.length := length_decodeIndices_le d ign
      _ = fullBytes x.length := by rw [length_symbolsToIndices hd]
      _ ≤ fullSymbols x.length := fullBytes_le_fullSymbols _
  | idx2sym ign =>
    obtain rfl : indicesToSymbols x = r := Option.some.inj h
    exact (List.length_map _).trans_le (le_fullSymbols _)
  | sym2idx ign =>
    obtain ⟨d, hd, rfl⟩ := Option.map_eq_some_iff.1 h
    rw [List.length_map, length_symbolsToIndices hd]
    exact le_fullSymbols _

/-- The bound of `State.resultFits`: the result of an input of at most 2684354559 units fits the 32 bits of OUT_LEN. -/
theorem fullSymbols_lt_two_pow {n : Nat} (h : n ≤ 2684354559) : fullSymbols n < 2 ^ 32 := by
  unfold fullSymbols cdiv; omega

/-! The end of a command with a result, field by field. -/

section EndWithResult

variable (r : List Byte) (s : State)

@[simp] theorem State.endWithResult_params : (s.endWithResult r).params = s.params := by rw [endWithResult_eq]
@[simp] theorem State.endWithResult_busy : (s.endWithResult r).busy = false := rfl
@[simp] theorem State.endWithResult_errSym : (s.endWithResult r).errSym = false := rfl
@[simp] theorem State.endWithResult_errLen : (s.endWithResult r).errLen = false := rfl
@[simp] theorem State.endWithResult_inBuf : (s.endWithResult r).inBuf = s.inBuf := by rw [endWithResult_eq]
@[simp] theorem State.endWithResult_outBuf : (s.endWithResult r).outBuf = Memory.writeFrom s.outBuf 0 r := by
  rw [endWithResult_eq]
@[simp] theorem State.endWithResult_outLen : (s.endWithResult r).outLen = (s.setOutLen r.length).outLen := by
  rw [endWithResult_eq]

theorem State.endWithResult_outLen_le : (s.endWithResult r).outLen.toNat ≤ r.length := by
  rw [endWithResult_outLen]
  exact setOutLen_outLen_le ..

/-- The OUT cells below OUT_LEN are the result's. -/
theorem State.read_endWithResult {j : Nat} (hj : j < (s.endWithResult r).outLen.toNat) :
    Memory.read (s.endWithResult r).outBuf j = r[j]? := by
  have hj' : j < r.length := hj.trans_le (s.endWithResult_outLen_le r)
  rw [endWithResult_outBuf, Memory.read_writeFrom, if_pos (by omega), Nat.sub_zero]

end EndWithResult

/-- OUT_LEN after a result is a function of its length, and of the count of draws if the length does not fit. -/
theorem State.setOutLen_outLen_congr {n : Nat} {s t : State} (h : n < 2 ^ 32 ∨ s.draws = t.draws) :
    (s.setOutLen n).outLen = (t.setOutLen n).outLen := by
  unfold State.setOutLen
  split
  · rfl
  · next hn => rw [h.resolve_left hn]

/-! The branches of the completion step. -/

section Complete

variable {f : List Byte → Option (List Byte)} {s : State}

theorem State.complete_of_lengthError (h : s.params.inDepth < s.len) : s.complete f = s.endInError .lengthError := if_pos h

theorem State.complete_of_invalidSymbol (h : s.len ≤ s.params.inDepth) (hf : f s.input = none) :
    s.complete f = s.afterInput.endInError .invalidSymbol := by
  rw [State.complete, if_neg h.not_gt, hf]

theorem State.complete_of_result {r : List Byte} (h : s.len ≤ s.params.inDepth) (hf : f s.input = some r) :
    s.complete f = s.afterInput.endWithResult r := by
  rw [State.complete, if_neg h.not_gt, hf]

end Complete

end Sys2Proof.Machine
end

section
/-! SUPPORT. The events of the block (10_state.md R34; 20_memory.md R57, R58): everything that one step can do to it, for
the invariants to be proved event by event. -/

namespace Sys2Proof.Machine

/-- One event at the block, from `s` to `t`: nothing, the draw of a free value, the four effects a host action can have, or
the completion of the command held in CMD. -/
inductive BlockEvent (s : State) : State → Prop
  | nothing : BlockEvent s s
  | draw : BlockEvent s { s with draws := s.draws + 1 }
  | start (w : Word) (idle : s.busy = false) : BlockEvent s (s.startCommand w)
  | setInLen (v : Word) (idle : s.busy = false) : BlockEvent s { s with inLen := v }
  | writeIn (i : Nat) (v : Byte) (hi : i < s.params.inDepth) (idle : s.busy = false) :
      BlockEvent s { s with inBuf := Memory.write s.inBuf i v }
  | reset : BlockEvent s s.resetBlock
  | complete (running : s.busy = true) : BlockEvent s (s.complete (commandResult s.command))

/-- A host action that is not refused is one event. -/
theorem BlockEvent.of_hostAction {a : HostAction} {s t : State} (h : (hostAction a s).after = some t) : BlockEvent s t := by
  rcases hostAction_cases h with rfl | rfl | ⟨w, -, idle, rfl⟩ | ⟨v, -, idle, rfl⟩ | ⟨i, v, -, hi, idle, rfl⟩ | ⟨-, rfl⟩
  · exact .nothing
  · exact .draw
  · exact .start w idle
  · exact .setInLen v idle
  · exact .writeIn i v hi idle
  · exact .reset

/-- A step is one event at the block; besides, it takes a turn from the schedule, and the host's position, variables and
halt may change. -/
theorem step_event {s t : State} (h : step s = .next t) :
    ∃ u pc vs hlt, BlockEvent s.takeTurn u ∧ t = { u with hostPc := pc, vars := vs, halted := hlt } := by
  rcases step_cases h with ⟨-, -, rfl⟩ | ⟨-, busy, he⟩ | ⟨-, -, rfl⟩ | ⟨st, -, -, hst⟩
  · exact ⟨_, _, _, _, .nothing, rfl⟩
  · rw [exec_eq_next_complete] at he
    cases he
    exact ⟨_, _, _, _, .complete busy, rfl⟩
  · exact ⟨_, _, _, _, .nothing, rfl⟩
  · rcases hostStmt_next hst with ⟨a, u, vs, ha, rfl, -⟩ | ⟨pc, rfl⟩ | rfl
    · exact ⟨u, _, vs, _, .of_hostAction ha, rfl⟩
    · exact ⟨_, pc, _, _, .nothing, rfl⟩
    · exact ⟨_, _, _, true, .nothing, rfl⟩

end Sys2Proof.Machine
end

section
/-! CERTIFICATE. The values of STATUS and the events that write it (10_state.md R26, R34). -/

namespace Sys2Proof.Machine

theorem State.statusLegal_iff (s : State) :
    s.statusLegal = true ↔ s.statusWord ∈ [0#32, 1#32, 2#32, 6#32, 10#32] :=
  List.contains_iff_mem

@[simp] theorem State.statusWord_resetOf (p : Params) : (State.resetOf p).statusWord = 0#32 :=
  (State.statusWord_of (b := false) (d := false) (e := false) (l := false) rfl rfl rfl rfl).trans (by decide)

/-- A completion leaves STATUS at DONE, or at DONE with one of the two errors. -/
theorem State.statusWord_complete (f : List Byte → Option (List Byte)) (s : State) :
    (s.complete f).statusWord ∈ [0x2#32, 0x6#32, 0xA#32] := by
  rcases State.complete_cases f s with ⟨-, h⟩ | ⟨-, -, h⟩ | ⟨r, -, -, h⟩ <;> simp [h]

/-- An event leaves STATUS as it was, or at one of its legal values. -/
theorem BlockEvent.statusWord_eq_or_mem {s t : State} (h : BlockEvent s t) :
    t.statusWord = s.statusWord ∨ t.statusWord ∈ [0#32, 1#32, 2#32, 6#32, 10#32] := by
  cases h with
  | nothing => exact .inl rfl
  | draw => exact .inl rfl
  | start w => simp
  | setInLen v => exact .inl rfl
  | writeIn i v => exact .inl rfl
  | reset => simp
  | complete =>
    exact .inr (List.mem_cons_of_mem _ (List.mem_cons_of_mem _ (State.statusWord_complete _ s)))

theorem BlockEvent.statusWord_mem {s t : State} (h : BlockEvent s t)
    (hs : s.statusWord ∈ [0#32, 1#32, 2#32, 6#32, 10#32]) : t.statusWord ∈ [0#32, 1#32, 2#32, 6#32, 10#32] := by
  rcases h.statusWord_eq_or_mem with h | h
  · rwa [h]
  · exact h

/-- Settles O51, event by event. -/
theorem statusTakesOnlyLegalValues : Obligations.StatusTakesOnlyLegalValues := by
  refine ⟨State.statusWord_resetOf, fun s t hs h => ?_, fun s => rfl⟩
  obtain ⟨u, pc, vs, hlt, event, rfl⟩ := step_event h
  exact event.statusWord_mem hs

/-- Settles O52: of the effects a host action can have, only a command's start and Reset write a bit of STATUS, and the turn
of an idle engine writes nothing. -/
theorem flagsAreWrittenByThreeEventsOnly : Obligations.FlagsAreWrittenByThreeEventsOnly := by
  refine ⟨fun a s t h hne => ?_, fun s t engine h hne => ?_⟩
  · rcases hostAction_cases h with rfl | rfl | ⟨w, ha, idle, -⟩ | ⟨v, -, -, rfl⟩ | ⟨i, v, -, -, -, rfl⟩ | ⟨ha, -⟩
    · exact absurd rfl hne
    · exact absurd rfl hne
    · exact .inr ⟨w, ha, idle⟩
    · exact absurd rfl hne
    · exact absurd rfl hne
    · exact .inl ha
  · rcases step_cases h with ⟨-, -, rfl⟩ | ⟨-, busy, -⟩ | ⟨host, -, -⟩ | ⟨st, host, -, -⟩
    · exact absurd rfl hne
    · exact busy
    · simp [host] at engine
    · simp [host] at engine

end Sys2Proof.Machine
end

section
/-! CERTIFICATE. The invariant of the block (00_scope.md R5; 10_state.md R26, R27, R31, R32; 44_host_interface.md R187). -/

namespace Sys2Proof.Machine

/-- The invariant speaks of the block alone: not of the host, the turns to come, CMD, IN_LEN or the count of draws. -/
theorem State.Inv.congr {s t : State} (hs : s.Inv) (params : t.params = s.params) (inBuf : t.inBuf = s.inBuf)
    (outBuf : t.outBuf = s.outBuf) (outLen : t.outLen = s.outLen) (busy : t.busy = s.busy) (done : t.done = s.done)
    (errSym : t.errSym = s.errSym) (errLen : t.errLen = s.errLen) : t.Inv where
  depths := params ▸ hs.depths
  inWf := inBuf ▸ hs.inWf
  outWf := outBuf ▸ hs.outWf
  inWithin := params ▸ inBuf ▸ hs.inWithin
  outWithin := params ▸ outBuf ▸ hs.outWithin
  registers := by
    have status : t.statusWord = s.statusWord := State.statusWord_of busy done errSym errLen
    simpa only [State.registersConsistent, State.statusLegal, status, params, outLen, busy, errSym, errLen]
      using hs.registers
  result := by simpa only [State.resultKnown, outLen, outBuf] using hs.result

/-- With OUT_LEN 0 and legal depths, canonical buffers and a legal STATUS are all that the invariant asks for: no bound on
OUT_LEN and no cell of a result is left to check. -/
theorem State.Inv.of_outLen_eq_zero {s : State} (depths : s.params.legal = true) (inWf : Memory.wf s.inBuf)
    (outWf : Memory.wf s.outBuf) (inWithin : Memory.within s.inBuf s.params.inDepth = true)
    (outWithin : Memory.within s.outBuf s.params.outDepth = true)
    (status : s.statusWord ∈ [0#32, 1#32, 2#32, 6#32, 10#32]) (outLen : s.outLen = 0) : s.Inv where
  depths := depths
  inWf := inWf
  outWf := outWf
  inWithin := inWithin
  outWithin := outWithin
  registers := ⟨s.statusLegal_iff.2 status, by simp [outLen], fun _ => outLen⟩
  result := fun j hj => by simp [outLen] at hj

theorem State.inv_resetOf {p : Params} (hp : p.legal = true) : (State.resetOf p).Inv :=
  .of_outLen_eq_zero hp .nil .nil rfl rfl (by simp) rfl

/-- Settles O49: after reset OUT_LEN is 0, STATUS is 0 and both buffers are empty. -/
theorem resetMeetsTheInvariant : Obligations.ResetMeetsTheInvariant :=
  ⟨fun _ hp => State.inv_resetOf hp, State.inv_resetOf (by decide)⟩

theorem State.Inv.startCommand {s : State} (hs : s.Inv) (w : Word) : (s.startCommand w).Inv :=
  .of_outLen_eq_zero hs.depths hs.inWf hs.outWf hs.inWithin hs.outWithin (by simp) rfl

theorem State.Inv.resetBlock {s : State} (hs : s.Inv) : s.resetBlock.Inv :=
  .of_outLen_eq_zero hs.depths .nil .nil rfl rfl (by simp) rfl

theorem State.Inv.endInError {s : State} (hs : s.Inv) (e : CmdError) : (s.endInError e).Inv :=
  .of_outLen_eq_zero hs.depths hs.inWf hs.outWf hs.inWithin hs.outWithin (by cases e <;> simp) rfl

theorem State.Inv.writeIn {s : State} (hs : s.Inv) {i : Nat} (hi : i < s.params.inDepth) (v : Byte) :
    State.Inv { s with inBuf := Memory.write s.inBuf i v } where
  depths := hs.depths
  inWf := Memory.wf_write hs.inWf i v
  outWf := hs.outWf
  inWithin := Memory.within_write hs.inWithin hi v
  outWithin := hs.outWithin
  registers := hs.registers
  result := hs.result

/-- A result that OUT has room for keeps the invariant. -/
theorem State.Inv.endWithResult {s : State} (hs : s.Inv) {r : List Byte} (hr : r.length ≤ s.params.outDepth) :
    (s.endWithResult r).Inv where
  depths := by simpa using hs.depths
  inWf := by simpa using hs.inWf
  outWf := by simpa using Memory.wf_writeFrom hs.outWf 0 r
  inWithin := by simpa using hs.inWithin
  outWithin := by simpa using Memory.within_writeFrom hs.outWithin r (by omega)
  registers := by
    refine ⟨(State.statusLegal_iff _).2 (by simp), ?_, by simp⟩
    rw [endWithResult_params]
    exact (s.endWithResult_outLen_le r).trans hr
  result := fun j hj => by
    have hj' : j < r.length := hj.trans_le (s.endWithResult_outLen_le r)
    rw [s.read_endWithResult r hj, List.getElem?_eq_getElem hj', Option.isSome_some]

/-- At legal depths OUT has room for the result of every command whose input IN holds. -/
theorem length_commandResult_le_outDepth {p : Params} (hp : p.legal = true) {i : Instr} {x r : List Byte}
    (hx : x.length ≤ p.inDepth) (hr : commandResult i x = some r) : r.length ≤ p.outDepth := by
  have room : fullSymbols p.inDepth ≤ p.outDepth := by
    simp only [Params.legal, Bool.and_eq_true, decide_eq_true_eq] at hp
    exact hp.2
  calc r.length ≤ fullSymbols x.length := length_commandResult_le hr
    _ ≤ fullSymbols p.inDepth := fullSymbols_mono hx
    _ ≤ p.outDepth := room

theorem State.Inv.afterInput {s : State} (hs : s.Inv) : s.afterInput.Inv :=
  hs.congr rfl rfl rfl rfl rfl rfl rfl rfl

theorem State.Inv.complete {s : State} (hs : s.Inv) (i : Instr) : (s.complete (commandResult i)).Inv := by
  rcases State.complete_cases (commandResult i) s with ⟨-, h⟩ | ⟨-, -, h⟩ | ⟨r, hlen, hr, h⟩
  · exact h ▸ hs.endInError _
  · exact h ▸ hs.afterInput.endInError _
  · exact h ▸ hs.afterInput.endWithResult (length_commandResult_le_outDepth hs.depths (s.length_input.trans_le hlen) hr)

/-- Every event keeps the invariant. -/
theorem BlockEvent.inv {s t : State} (h : BlockEvent s t) (hs : s.Inv) : t.Inv := by
  cases h with
  | nothing => exact hs
  | draw => exact hs.congr rfl rfl rfl rfl rfl rfl rfl rfl
  | start w => exact hs.startCommand w
  | setInLen v => exact hs.congr rfl rfl rfl rfl rfl rfl rfl rfl
  | writeIn i v hi => exact hs.writeIn hi v
  | reset => exact hs.resetBlock
  | complete => exact hs.complete _

/-- Settles O50: a step is one event at the block, and every event keeps the invariant. -/
theorem everyStepKeepsTheInvariant : Obligations.EveryStepKeepsTheInvariant := by
  intro s t hs h
  obtain ⟨u, pc, vs, hlt, event, rfl⟩ := step_event h
  have turn : s.takeTurn.Inv := hs.congr rfl rfl rfl rfl rfl rfl rfl rfl
  exact (event.inv turn).congr rfl rfl rfl rfl rfl rfl rfl rfl

end Sys2Proof.Machine
end

section
/-! CERTIFICATE. A command's result depends only on its operands (10_state.md R35). -/

namespace Sys2Proof.Machine

/-- Known cells read the same whatever free values have been drawn before. -/
theorem cellsFrom_fst_of_known {m : Memory} {i n : Nat}
    (h : ∀ k, i ≤ k → k < i + n → (Memory.read m k).isSome = true) (d d' : Nat) :
    (cellsFrom m i n d).1 = (cellsFrom m i n d').1 := by
  refine List.ext_getElem? fun k => ?_
  by_cases hk : k < n
  · rw [(cellsFrom_known h d).2 k hk, (cellsFrom_known h d').2 k hk]
  · rw [List.getElem?_eq_none (by simpa using hk), List.getElem?_eq_none (by simpa using hk)]

section Operands

variable {s t : State}

/-- States that agree on the cells read, drawing from one count, read the same input and draw as much. -/
theorem cellsFrom_inBuf_congr (hlen : s.len = t.len)
    (cells : ∀ k, k < s.len → Memory.read s.inBuf k = Memory.read t.inBuf k) (d : Nat) :
    cellsFrom s.inBuf 0 s.len d = cellsFrom t.inBuf 0 t.len d := by
  rw [← hlen]
  exact cellsFrom_congr (fun k _ hk => cells k (by omega)) d

theorem State.input_congr (hlen : s.len = t.len)
    (cells : ∀ k, k < s.len → Memory.read s.inBuf k = Memory.read t.inBuf k)
    (hd : s.draws = t.draws ∨ s.inputKnown) : s.input = t.input := by
  calc s.input = (cellsFrom s.inBuf 0 s.len t.draws).1 := by
        rcases hd with hd | known
        · rw [State.input, hd]
        · exact cellsFrom_fst_of_known (fun k _ hk => known k (by omega)) _ _
    _ = t.input := by rw [cellsFrom_inBuf_congr hlen cells, State.input]

/-- The free values left after the input has been read start at one count, if they did before. -/
theorem State.draws_afterInput_congr (hlen : s.len = t.len)
    (cells : ∀ k, k < s.len → Memory.read s.inBuf k = Memory.read t.inBuf k) (hd : s.draws = t.draws) :
    s.afterInput.draws = t.afterInput.draws := by
  simp only [afterInput_draws, hd, cellsFrom_inBuf_congr hlen cells]

end Operands

/-- The host reads the same result from both states: the same STATUS, the same OUT_LEN, and the same OUT cells below it. -/
def State.sameResult (u v : State) : Prop :=
  u.statusWord = v.statusWord ∧ u.outLen = v.outLen ∧
    ∀ j, j < u.outLen.toNat → Memory.read u.outBuf j = Memory.read v.outBuf j

theorem State.sameResult_endInError (e : CmdError) (s t : State) : (s.endInError e).sameResult (t.endInError e) :=
  ⟨by cases e <;> simp, rfl, fun j hj => absurd hj (Nat.not_lt_zero j)⟩

theorem State.sameResult_endWithResult {r : List Byte} {s t : State} (h : r.length < 2 ^ 32 ∨ s.draws = t.draws) :
    (s.endWithResult r).sameResult (t.endWithResult r) := by
  have outLen : (s.endWithResult r).outLen = (t.endWithResult r).outLen := by
    rw [endWithResult_outLen, endWithResult_outLen, setOutLen_outLen_congr h]
  refine ⟨by simp, outLen, fun j hj => ?_⟩
  rw [s.read_endWithResult r hj, t.read_endWithResult r (outLen ▸ hj)]

/-- Two completions on the same operands take the same branch. A free value can matter only to an unknown cell and to the
OUT_LEN of a result of 2^32 units or more. -/
theorem State.sameResult_complete {i : Instr} {s t : State} (params : s.params = t.params) (hlen : s.len = t.len)
    (cells : s.len ≤ s.params.inDepth → ∀ k, k < s.len → Memory.read s.inBuf k = Memory.read t.inBuf k)
    (hd : s.draws = t.draws ∨ (s.len ≤ s.params.inDepth → s.inputKnown ∧ s.resultFits)) :
    (s.complete (commandResult i)).sameResult (t.complete (commandResult i)) := by
  by_cases fits : s.len ≤ s.params.inDepth
  case neg =>
    have long : s.params.inDepth < s.len := Nat.lt_of_not_le fits
    rw [complete_of_lengthError long, complete_of_lengthError (params ▸ hlen ▸ long)]
    exact sameResult_endInError ..
  case pos =>
    have fits' : t.len ≤ t.params.inDepth := params ▸ hlen ▸ fits
    have input : s.input = t.input := input_congr hlen (cells fits) (hd.imp_right fun h => (h fits).1)
    cases hr : commandResult i s.input with
    | none =>
      rw [complete_of_invalidSymbol fits hr, complete_of_invalidSymbol fits' (input ▸ hr)]
      exact sameResult_endInError ..
    | some r =>
      rw [complete_of_result fits hr, complete_of_result fits' (input ▸ hr)]
      refine sameResult_endWithResult ?_
      rcases hd with hd | known
      · exact .inr (draws_afterInput_congr hlen (cells fits) hd)
      · refine .inl ((length_commandResult_le hr).trans_lt (fullSymbols_lt_two_pow ?_))
        rw [length_input]
        exact (known fits).2

/-- Settles O58: every command is a completion, and a completion's result follows from the operands it reads. -/
theorem resultDependsOnlyOnItsOperands : Obligations.ResultDependsOnlyOnItsOperands :=
  fun i s t params inLen cells hd =>
    ⟨_, _, exec_eq_next_complete i s, exec_eq_next_complete i t,
      State.sameResult_complete params (congrArg BitVec.toNat inLen) cells hd⟩

end Sys2Proof.Machine
end

section
/-! SUPPORT. Which host accesses answer: the unit that a host action names, that an action is refused exactly if that unit
does not exist, and the same for an access at the ports or at a system address (20_memory.md R50 to R53). -/

namespace Sys2Proof.Machine

variable {s : State}

/-! Each host action by itself. -/

theorem regWrite_refused_iff {n : Nat} {v : Word} : (∃ r, regWrite n v s = .refused r) ↔ 8 ≤ n := by
  unfold regWrite
  split
  · simp
  · simp
  · split <;> simp <;> omega

theorem regRead_refused_iff {n : Nat} : (∃ r, regRead n s = .refused r) ↔ 8 ≤ n := by
  unfold regRead
  split
  · simp
  · simp
  · simp
  · simp
  · split <;> simp <;> omega

theorem inWrite_refused_iff {i : Nat} {v : Byte} : (∃ r, inWrite i v s = .refused r) ↔ s.params.inDepth ≤ i := by
  unfold inWrite
  split <;> simp <;> omega

theorem inRead_refused_iff {i : Nat} : (∃ r, inRead i s = .refused r) ↔ s.params.inDepth ≤ i := by
  unfold inRead
  split <;> simp <;> omega

theorem outRead_refused_iff {j : Nat} : (∃ r, outRead j s = .refused r) ↔ s.params.outDepth ≤ j := by
  unfold outRead
  split
  · split <;> simp <;> omega
  · simp; omega

theorem outWrite_refused_iff {j : Nat} {v : Byte} : (∃ r, outWrite j v s = .refused r) ↔ s.params.outDepth ≤ j := by
  unfold outWrite
  split <;> simp <;> omega

/-! The unit a host action names. -/

/-- The unit that a host action names; Reset names none. -/
def HostAction.unit : HostAction → Option (Space × Nat)
  | .regWrite n _ => some (.reg, n)
  | .regRead n => some (.reg, n)
  | .inWrite i _ => some (.inBuf, i)
  | .inRead i => some (.inBuf, i)
  | .outRead j => some (.outBuf, j)
  | .outWrite j _ => some (.outBuf, j)
  | .reset => none

/-- A host action is refused exactly if it names a unit that does not exist. -/
theorem hostAction_refused_iff {a : HostAction} :
    (∃ r, hostAction a s = .refused r) ↔ ∃ sp i, a.unit = some (sp, i) ∧ spaceSize s.params sp ≤ i := by
  cases a with
  | regWrite n v => simpa [HostAction.unit, spaceSize, hostAction] using regWrite_refused_iff
  | regRead n => simpa [HostAction.unit, spaceSize, hostAction] using regRead_refused_iff
  | inWrite i v => simpa [HostAction.unit, spaceSize, hostAction] using inWrite_refused_iff
  | inRead i => simpa [HostAction.unit, spaceSize, hostAction] using inRead_refused_iff
  | outRead j => simpa [HostAction.unit, spaceSize, hostAction] using outRead_refused_iff
  | outWrite j v => simpa [HostAction.unit, spaceSize, hostAction] using outWrite_refused_iff
  | reset => simp [HostAction.unit, hostAction]

/-- The host action that an access of the admitted shape is names the accessed unit. -/
@[simp] theorem unit_unitAction (sp : Space) (index : Nat) (dir : Dir) : (unitAction sp index dir).unit = some (sp, index) := by
  cases dir <;> cases sp <;> rfl

/-! Accesses at the ports and at system addresses. -/

theorem Access.fits_iff (acc : Access) (sp : Space) : acc.fits sp = true ↔ acc.count = 1 ∧ acc.width = unitWidth sp := by
  simp [Access.fits]

/-- An access at the ports is refused exactly if its shape, its start or its unit is wrong. -/
theorem portAccess_refused_iff {sp : Space} {index offset : Nat} {acc : Access} :
    (∃ r, portAccess sp index offset acc s = .refused r) ↔
      ¬ (acc.fits sp = true ∧ offset = 0 ∧ index < spaceSize s.params sp) := by
  rcases portAccess_eq sp index offset acc s with ⟨heq, hfits, hoff⟩ | ⟨r, heq, hbad⟩
  · rw [heq, hostAction_refused_iff]
    simp [hfits, hoff]
  · simp only [heq, Reply.refused.injEq, exists_eq', true_iff]
    exact fun ⟨hfits, hoff, _⟩ => hbad ⟨hfits, hoff⟩

/-- Where no unit that exists is placed, the platform finds none. -/
theorem unitAt_eq_none {p : Params} {addr : Nat}
    (h : ∀ (sp : Space) (i : Nat), i < spaceSize p sp → Config.blockBase sp i ≠ addr) : unitAt p addr = none :=
  List.find?_eq_none.2 fun ⟨sp, i⟩ hu => by simpa using h sp i ((mem_allUnits p sp i).1 hu)

/-- A unit that the platform finds at an address exists. -/
theorem lt_spaceSize_of_unitAt {p : Params} {addr i : Nat} {sp : Space} (h : unitAt p addr = some (sp, i)) :
    i < spaceSize p sp :=
  (mem_allUnits p sp i).1 (List.mem_of_find?_eq_some h)

theorem systemAccess_of_unitAt {addr i : Nat} {sp : Space} (h : unitAt s.params addr = some (sp, i)) (acc : Access) :
    systemAccess addr acc s = portAccess sp i 0 acc s := by
  simp [systemAccess, h]

theorem systemAccess_of_no_unit {addr : Nat} (h : unitAt s.params addr = none) (acc : Access) :
    systemAccess addr acc s = .refused .noUnitAtAddress := by
  simp [systemAccess, h]

end Sys2Proof.Machine
end

section
/-! CERTIFICATE. The accesses at the ports and at system addresses, and that no read has a side effect (20_memory.md R50 to
R53, R56). -/

namespace Sys2Proof.Machine

/-- Settles O41: in each space the condition is the shape, start and unit of `portAccess_refused_iff`. -/
theorem illShapedAccessesAreRefused : Obligations.IllShapedAccessesAreRefused := by
  intro sp index offset acc s
  rw [portAccess_refused_iff, Access.fits_iff, and_assoc]
  cases sp <;> rfl

/-- Settles O42: addresses of distinct units are distinct, so the lookup finds the unit placed there, or none. -/
theorem systemAddressReachesItsUnit : Obligations.SystemAddressReachesItsUnit :=
  fun acc _ => ⟨fun _ _ hi => systemAccess_of_unitAt (unitAt_blockBase hi) acc,
    fun _ h => systemAccess_of_no_unit (unitAt_eq_none h) acc⟩

/-- A host action that returns a value moves at most the count of free values, by one: the actions with another effect
return none. -/
theorem hostAction_value_after {a : HostAction} {s t : State} {v : Word} (h : hostAction a s = .value v t) :
    t = s ∨ t = { s with draws := s.draws + 1 } := by
  have after : (hostAction a s).after = some t := by rw [h, Reply.after]
  rcases hostAction_cases after with same | drawn | ⟨w, rfl, -⟩ | ⟨w, rfl, -⟩ | ⟨i, b, rfl, hi, -⟩ | ⟨rfl, -⟩
  · exact .inl same
  · exact .inr drawn
  · simp [hostAction, regWrite] at h
  · simp [hostAction, regWrite] at h
  · simp [hostAction, inWrite, hi] at h
  · simp [hostAction] at h

/-- Settles O54: a read that drew no free value left the state itself, so it is the same read again. -/
theorem hostReadsChangeNothing : Obligations.HostReadsChangeNothing := by
  intro a s t v h
  rcases hostAction_value_after h with rfl | rfl
  · exact ⟨rfl, le_rfl, fun _ => h⟩
  · exact ⟨rfl, Nat.le_succ _, fun noDraw => absurd noDraw (Nat.succ_ne_self _)⟩

end Sys2Proof.Machine
end

section
/-! CERTIFICATE. Under a well-formed host program every step answers next (20_memory.md R50 to R53; 30_encoding.md R73,
R75). -/

namespace Sys2Proof.Machine

/-- The end of a statement whose access is not refused answers next. -/
theorem endStmt_answers {r : Reply} (h : ¬ ∃ e, r = .refused e) (t : Fin 8) : ∃ u, endStmt t r = .next u := by
  cases r with
  | done s => exact ⟨_, rfl⟩
  | value v s => exact ⟨_, rfl⟩
  | refused e => exact absurd ⟨e, rfl⟩ h

section Answers

variable {s : State} {sp : Space} {i : Nat}

/-- A statement that performs an action on a unit that exists answers next. -/
theorem endStmt_hostAction_answers {a : HostAction} (ha : a.unit = some (sp, i)) (hi : i < spaceSize s.params sp)
    (t : Fin 8) : ∃ u, endStmt t (hostAction a s) = .next u := by
  refine endStmt_answers (fun refused => ?_) t
  obtain ⟨sp', i', ha', hi'⟩ := hostAction_refused_iff.1 refused
  obtain ⟨rfl, rfl⟩ : sp = sp' ∧ i = i' := by simpa [ha] using ha'
  omega

/-- A statement that accesses a unit that exists, by the shape its space admits, answers next. -/
theorem endStmt_portAccess_answers {acc : Access} (hfits : acc.fits sp = true) (hi : i < spaceSize s.params sp)
    (t : Fin 8) : ∃ u, endStmt t (portAccess sp i 0 acc s) = .next u :=
  endStmt_answers (fun refused => portAccess_refused_iff.1 refused ⟨hfits, rfl, hi⟩) t

end Answers

/-- A well-formed statement answers next: the unit it accesses, if any, exists. -/
theorem hostStmt_answers_of_wellFormed {st : HostStmt} {s : State} {n : Nat} (h : st.wellFormed s.params n = true) :
    ∃ u, hostStmt st s = .next u := by
  cases st with
  | wrr slot src =>
    have hi : slot < spaceSize s.params .reg := of_decide_eq_true h
    exact endStmt_hostAction_answers rfl hi 0
  | rdr t slot =>
    have hi : slot < spaceSize s.params .reg := of_decide_eq_true h
    exact endStmt_hostAction_answers rfl hi t
  | wri idx src =>
    have hi : idx < spaceSize s.params .inBuf := of_decide_eq_true h
    exact endStmt_hostAction_answers rfl hi 0
  | rdi t idx =>
    have hi : idx < spaceSize s.params .inBuf := of_decide_eq_true h
    exact endStmt_hostAction_answers rfl hi t
  | rdo t idx =>
    have hi : idx < spaceSize s.params .outBuf := of_decide_eq_true h
    exact endStmt_hostAction_answers rfl hi t
  | rst => exact ⟨_, rfl⟩
  | bit1 t k label => exact ⟨_, rfl⟩
  | halt => exact ⟨_, rfl⟩
  | wro idx src =>
    have hi : idx < spaceSize s.params .outBuf := of_decide_eq_true h
    exact endStmt_hostAction_answers rfl hi 0
  | port t sp index offset acc =>
    obtain ⟨⟨hi, rfl⟩, hfits⟩ : (index < spaceSize s.params sp ∧ offset = 0) ∧ acc.fits sp = true := by
      simpa [HostStmt.wellFormed] using h
    exact endStmt_portAccess_answers hfits hi t
  | sys t addr acc =>
    cases hunit : unitAt s.params addr with
    | none => simp [HostStmt.wellFormed, hunit] at h
    | some u =>
      have hfits : acc.fits u.1 = true := by simpa [HostStmt.wellFormed, hunit] using h
      rw [hostStmt, systemAccess_of_unitAt hunit]
      exact endStmt_portAccess_answers hfits (lt_spaceSize_of_unitAt hunit) t

/-- The host's next statement is one of its program. -/
theorem State.mem_prog_of_hostNext {s : State} {st : HostStmt} (h : s.hostNext = some st) : st ∈ s.prog := by
  unfold State.hostNext at h
  split at h
  · simp at h
  · exact List.mem_of_getElem? h

/-- The turn of a host with a well-formed program answers next. -/
theorem hostTurn_answers_of_wellFormed {s : State} (h : programWellFormed s.params s.prog = true) :
    ∃ u, hostTurn s = .next u := by
  unfold hostTurn
  cases hnext : s.hostNext with
  | none => exact ⟨s, rfl⟩
  | some st => exact hostStmt_answers_of_wellFormed (List.all_eq_true.1 h st (State.mem_prog_of_hostNext hnext))

/-- Settles O60: the engine's turn always answers next, and the host's does under a well-formed program. -/
theorem wellFormedProgramIsNeverRefused : Obligations.WellFormedProgramIsNeverRefused := by
  intro s h
  unfold step
  split
  · split
    · exact ⟨_, exec_eq_next_complete ..⟩
    · exact ⟨_, rfl⟩
  · exact hostTurn_answers_of_wellFormed (s := s.takeTurn) h

end Sys2Proof.Machine
end

section
/-! SUPPORT. The command word by its fields (30_encoding.md R70 to R73): a command is its OP and IGN, the decoder reads them
from bits [2:0] of a word, and the encoder writes them there. -/

namespace Sys2Proof

/-! A command by its fields. -/

/-- A command is its OP and its IGN. -/
theorem Instr.eq_iff_fields {i j : Instr} : i = j ↔ i.op = j.op ∧ i.ign = j.ign := by
  cases i <;> cases j <;> simp [Instr.op, Instr.ign]

/-! The fields of a word, as numbers and in the word. -/

theorem opField_eq_iff {w : Word} {op : BitVec 2} : opField w = op ↔ w.toNat % 4 = op.toNat := by
  rw [← BitVec.toNat_inj]
  simp [opField]

theorem ignField_eq (w : Word) : ignField w = (w.toNat / 4 % 2 == 1) := by
  rw [ignField, BitVec.getLsbD, Nat.testBit_eq_decide_div_mod_eq]
  rfl

theorem ignField_eq_iff {w w' : Word} : ignField w = ignField w' ↔ w.toNat / 4 % 2 = w'.toNat / 4 % 2 := by
  rw [ignField_eq, ignField_eq, Bool.eq_iff_iff, beq_iff_eq, beq_iff_eq]
  omega

/-- Bits [2:0] are the two fields. -/
theorem extractLsb'_zero_three_eq_iff {w w' : Word} :
    w.extractLsb' 0 3 = w'.extractLsb' 0 3 ↔ opField w = opField w' ∧ ignField w = ignField w' := by
  have hop : (opField w').toNat = w'.toNat % 4 := (opField_eq_iff.1 rfl).symm
  have hbits (v : Word) : (v.extractLsb' 0 3).toNat = v.toNat % 8 := by simp
  rw [opField_eq_iff, hop, ignField_eq_iff, ← BitVec.toNat_inj, hbits, hbits]
  omega

/-- The two fields alone, in 32 bits, are the word with bits [31:3] cleared. -/
theorem setWidth_fields_eq_and (w : Word) :
    (BitVec.ofBool (ignField w) ++ opField w).setWidth 32 = w &&& 7#32 := by
  refine BitVec.eq_of_getLsbD_eq fun i hi => ?_
  have mask : (7#32).getLsbD i = decide (i < 3) := by
    rw [BitVec.getLsbD_ofNat, show 7 = 2 ^ 3 - 1 from rfl, Nat.testBit_two_pow_sub_one, decide_eq_true hi, Bool.true_and]
  rw [BitVec.getLsbD_and, mask, BitVec.getLsbD_setWidth]
  by_cases low : i < 3
  · rw [BitVec.getLsbD_append]
    interval_cases i <;> simp [opField, ignField]
  · rw [BitVec.getLsbD_of_ge _ i (Nat.le_of_not_lt low), decide_eq_false low, Bool.and_false,
      Bool.and_false]

/-! The decoder and the encoder. -/

@[simp] theorem Instr.op_decodeCmd (w : Word) : (decodeCmd w).op = opField w := by
  unfold decodeCmd
  generalize opField w = op, ignField w = ign
  revert op ign
  decide

@[simp] theorem Instr.ign_decodeCmd (w : Word) : (decodeCmd w).ign = ignField w := by
  unfold decodeCmd
  split <;> rfl

/-- A word decodes to the command with its fields. -/
theorem decodeCmd_eq_iff {w : Word} {i : Instr} : decodeCmd w = i ↔ opField w = i.op ∧ ignField w = i.ign := by
  rw [Instr.eq_iff_fields, Instr.op_decodeCmd, Instr.ign_decodeCmd]

/-- The word of every command holds its fields. -/
theorem wordFields (i : Instr) : Laws.WordFields.Statement i := by
  cases i with
  | encode ign => exact Laws.WordFields.encode ign
  | decode ign => exact Laws.WordFields.decode ign
  | idx2sym ign => exact Laws.WordFields.idx2sym ign
  | sym2idx ign => exact Laws.WordFields.sym2idx ign

@[simp] theorem decodeCmd_encodeCmd (i : Instr) : decodeCmd (encodeCmd i) = i := by
  obtain ⟨hop, hign, -⟩ := wordFields i
  exact decodeCmd_eq_iff.2 ⟨hop, hign⟩

theorem encodeCmd_decodeCmd (w : Word) : encodeCmd (decodeCmd w) = w &&& 7#32 := by
  rw [encodeCmd, Instr.op_decodeCmd, Instr.ign_decodeCmd, setWidth_fields_eq_and]

end Sys2Proof
end

section
/-! CERTIFICATE. The command word: its decoder, its encoder and its reserved bits (30_encoding.md R70 to R73, R79). -/

namespace Sys2Proof.Machine

/-- Settles O2: a command and bits [2:0] of a word are the same two fields. -/
theorem decodeAndEncodeAgree : Obligations.DecodeAndEncodeAgree := by
  refine ⟨fun i _ => decodeCmd_encodeCmd i, encodeCmd_decodeCmd, fun w w' => ?_⟩
  rw [decodeCmd_eq_iff, Instr.op_decodeCmd, Instr.ign_decodeCmd, extractLsb'_zero_three_eq_iff]

/-- Settles O1: the command's number is the remainder modulo 4, and the flag is IGN in each case. -/
theorem commandWordDecodesByItsFields : Obligations.CommandWordDecodesByItsFields := by
  intro w
  rw [← ignField_eq]
  have op_lt : w.toNat % 4 < 4 := Nat.mod_lt _ (by decide)
  interval_cases hop : w.toNat % 4 <;> exact decodeCmd_eq_iff.2 ⟨opField_eq_iff.2 hop, rfl⟩

/-- A started command is held in CMD by its two fields. -/
theorem State.cmdWord_startCommand (s : State) (w : Word) : (s.startCommand w).cmdWord = w &&& 7#32 :=
  setWidth_fields_eq_and w

/-- CMD holds three bits. -/
theorem State.cmdWord_extractLsb'_high (s : State) : s.cmdWord.extractLsb' 3 29 = 0#29 := by
  refine BitVec.eq_of_getLsbD_eq fun i hi => ?_
  rw [BitVec.getLsbD_extractLsb', State.cmdWord, BitVec.getLsbD_setWidth,
    BitVec.getLsbD_of_ge _ (3 + i) (Nat.le_add_right 3 i)]
  simp

/-- Settles O3: the start of a command keeps nothing of the word but its two fields. -/
theorem reservedBitsAreIgnored : Obligations.ReservedBitsAreIgnored := by
  refine ⟨fun w w' s h => ?_, State.cmdWord_extractLsb'_high, fun w s => s.cmdWord_startCommand w⟩
  obtain ⟨hop, hign⟩ := extractLsb'_zero_three_eq_iff.1 h
  rw [State.startCommand, State.startCommand, hop, hign]

/-- Settles O4: each word's two fields are those of its command. -/
theorem sampleCommandWordsDecode : Obligations.SampleCommandWordsDecode := by
  unfold Obligations.SampleCommandWordsDecode
  decide

end Sys2Proof.Machine
end

section
/-! CERTIFICATE. The operands of a command (30_encoding.md R74; 70_reset_and_hazards.md R225). -/

namespace Sys2Proof.Machine

/-- The number of unknown cells among the `n` cells from index `i` on. -/
def Memory.unknowns (m : Memory) (i n : Nat) : Nat :=
  ((List.range' i n).filter fun k => (Memory.read m k).isNone).length

@[simp] theorem Memory.unknowns_zero (m : Memory) (i : Nat) : m.unknowns i 0 = 0 := rfl

theorem Memory.unknowns_succ_of_known {m : Memory} {i : Nat} {b : Byte} (h : Memory.read m i = some b) (n : Nat) :
    m.unknowns i (n + 1) = m.unknowns (i + 1) n := by
  simp [unknowns, List.range'_succ, h]

theorem Memory.unknowns_succ_of_unknown {m : Memory} {i : Nat} (h : Memory.read m i = none) (n : Nat) :
    m.unknowns i (n + 1) = m.unknowns (i + 1) n + 1 := by
  simp [unknowns, List.range'_succ, h]

/-- A cell read is its value, or the free value whose number counts the unknown cells read before it. -/
theorem getElem?_cellsFrom (m : Memory) {i n k : Nat} (hk : k < n) (d : Nat) :
    (cellsFrom m i n d).1[k]? = some ((Memory.read m (i + k)).getD (Config.any8 (d + m.unknowns i k))) := by
  induction n generalizing i k d with
  | zero => exact absurd hk (Nat.not_lt_zero k)
  | succ n ih =>
    have shift (j : Nat) : i + 1 + j = i + (j + 1) := by omega
    cases hread : Memory.read m i with
    | some b =>
      cases k with
      | zero => simp [cellsFrom, hread]
      | succ k =>
        simp only [cellsFrom, hread, List.getElem?_cons_succ]
        rw [ih (Nat.lt_of_succ_lt_succ hk), shift, Memory.unknowns_succ_of_known hread]
    | none =>
      cases k with
      | zero => simp [cellsFrom, hread]
      | succ k =>
        simp only [cellsFrom, hread, List.getElem?_cons_succ]
        rw [ih (Nat.lt_of_succ_lt_succ hk), shift, Memory.unknowns_succ_of_unknown hread, Nat.add_right_comm d 1,
          Nat.add_assoc d]

/-- Settles O26: the input is the cells from 0 on, and the free values are counted from the draws so far. -/
theorem operandsAreTheCellsOfIn : Obligations.OperandsAreTheCellsOfIn := by
  intro s
  refine ⟨s.length_input, fun i hi => ?_⟩
  have cell := getElem?_cellsFrom s.inBuf (i := 0) hi s.draws
  rw [Nat.zero_add] at cell
  refine ⟨fun v hv => ?_, fun hnone => ?_⟩
  · rwa [hv] at cell
  · rw [hnone, Memory.unknowns, ← List.range_eq_range'] at cell
    exact cell

end Sys2Proof.Machine
end

section
/-! SUPPORT. What the host's statements do and what a turn of the host is (30_encoding.md R77), one equation per case. -/

namespace Sys2Proof.Machine

section EndStmt

variable {t : Fin 8} {r : Reply} {u : State}

theorem endStmt_of_done (h : r = .done u) : endStmt t r = .next { u with hostPc := u.hostPc + 1 } := by
  rw [h]; rfl

theorem endStmt_of_value {v : Word} (h : r = .value v u) :
    endStmt t r = .next { u with vars := u.vars.set t v, hostPc := u.hostPc + 1 } := by
  rw [h]; rfl

theorem endStmt_of_refused {e : Refusal} (h : r = .refused e) : endStmt t r = .refused e := by
  rw [h]; rfl

end EndStmt

section HostStmt

variable (s : State)

theorem Source.byte_eq_setWidth (src : Source) : src.byte s = (src.value s).setWidth 8 :=
  (BitVec.setWidth_eq_extractLsb' (by decide)).symm

theorem hostStmt_wri (i : Nat) (src : Source) :
    hostStmt (.wri i src) s = endStmt 0 (hostAction (.inWrite i ((src.value s).setWidth 8)) s) := by
  rw [hostStmt, Source.byte_eq_setWidth]

theorem hostStmt_wro (j : Nat) (src : Source) :
    hostStmt (.wro j src) s = endStmt 0 (hostAction (.outWrite j ((src.value s).setWidth 8)) s) := by
  rw [hostStmt, Source.byte_eq_setWidth]

/-- BIT1 tests a bit of its variable, said of the variable as a number. -/
theorem hostStmt_bit1 (t : Fin 8) (k : Fin 32) (label : Nat) :
    hostStmt (.bit1 t k label) s =
      .next { s with hostPc := if (s.vars[t]).toNat / 2 ^ k.val % 2 = 1 then label else s.hostPc + 1 } := by
  rw [hostStmt, BitVec.getLsbD, Nat.testBit_eq_decide_div_mod_eq]
  simp only [decide_eq_true_eq, State.goto]

end HostStmt

section Turn

variable {s : State}

theorem step_of_host (host : s.nextTurn.1 = .host) : step s = hostTurn s.takeTurn := by
  rw [step, host]

theorem hostTurn_of_stmt {st : HostStmt} (running : s.halted = false) (hst : s.prog[s.hostPc]? = some st) :
    hostTurn s = hostStmt st s := by
  simp [hostTurn, State.hostNext, running, hst]

theorem hostTurn_of_ended (ended : s.halted = true ∨ s.prog.length ≤ s.hostPc) : hostTurn s = .next s := by
  have hnone : s.hostNext = none := by
    rcases ended with halted | past
    · simp [State.hostNext, halted]
    · simp [State.hostNext, List.getElem?_eq_none past]
  rw [hostTurn, hnone]

end Turn

end Sys2Proof.Machine
end

section
/-! CERTIFICATE. The host's statements: the actions of 30_encoding.md R75 and R77, the accesses of the model's own, and the
refused ones. -/

namespace Sys2Proof.Machine

/-- Settles O45: each statement's action answers, and the statement ends with its answer. -/
theorem hostStatementsPerformTheirActions : Obligations.HostStatementsPerformTheirActions := by
  intro s
  refine ⟨?turn, ?ended, ?wrrImm, ?wrrVar, ?rdr, ?wriImm, ?wriVar, ?rdi, ?rdo, ?rst, ?bit1, rfl⟩
  case turn => exact fun host running st hst => (step_of_host host).trans (hostTurn_of_stmt running hst)
  case ended => exact fun host ended => (step_of_host host).trans (hostTurn_of_ended ended)
  case wrrImm | wrrVar => exact fun _ _ _ h => endStmt_of_done h
  case rdr | rdi | rdo => exact fun _ _ _ _ h => endStmt_of_value h
  case wriImm | wriVar => exact fun _ _ _ h => (hostStmt_wri ..).trans (endStmt_of_done h)
  case rst => exact fun _ h => endStmt_of_done (t := 0) h
  case bit1 =>
    refine fun t k label => ⟨fun isOne => ?_, fun isZero => ?_⟩
    · rw [hostStmt_bit1, if_pos isOne]
    · rw [hostStmt_bit1, if_neg (by omega)]

/-- Settles O46: every statement but BIT1 and HALT ends with the answer of its action or access. -/
theorem accessStatementsAndRefusals : Obligations.AccessStatementsAndRefusals := by
  intro s
  refine ⟨?wroImm, ?wroVar, ?portDone, ?portValue, ?sysDone, ?sysValue, fun _ _ => ⟨rfl, rfl, rfl, rfl, rfl, rfl⟩,
    fun r => ?refusals⟩
  case wroImm | wroVar => exact fun _ _ _ h => (hostStmt_wro ..).trans (endStmt_of_done h)
  case portDone => exact fun _ _ _ _ _ _ h => endStmt_of_done h
  case portValue => exact fun _ _ _ _ _ _ _ h => endStmt_of_value h
  case sysDone => exact fun _ _ _ _ h => endStmt_of_done h
  case sysValue => exact fun _ _ _ _ _ h => endStmt_of_value h
  case refusals =>
    refine ⟨?wrrImm, ?wrrVar, ?rdr, ?wriImm, ?wriVar, ?rdi, ?rdo, ?wroImm, ?wroVar, ?port, ?sys⟩
    case wrrImm | wrrVar | rdr | rdi | rdo => exact fun _ _ h => endStmt_of_refused h
    case wriImm | wriVar => exact fun _ _ h => (hostStmt_wri ..).trans (endStmt_of_refused h)
    case wroImm | wroVar => exact fun _ _ h => (hostStmt_wro ..).trans (endStmt_of_refused h)
    case port => exact fun _ _ _ _ _ h => endStmt_of_refused h
    case sys => exact fun _ _ _ h => endStmt_of_refused h

end Sys2Proof.Machine
end

section
/-! SUPPORT. The laws of a host program's written form (30_encoding.md R77, R78): the lengths of the expansions, the positions
of labels, and an assembled program as the expansions of its lines. -/

namespace Sys2Proof.Machine

/-! The expansion of one line. -/

theorem length_loadinStmts (vs : List Byte) : (loadinStmts vs).length = vs.length + 1 := by
  simp [loadinStmts]

/-- A line that expands has the length its size says. -/
theorem length_of_expand {all : List Line} {p : Nat} {l : Line} {sts : List HostStmt} (h : l.expand all p = some sts) :
    sts.length = l.size := by
  cases l with
  | bit1 t k name =>
    obtain ⟨pos, -, rfl⟩ := Option.map_eq_some_iff.1 h
    rfl
  | loadin vs =>
    obtain rfl := Option.some.inj h
    exact length_loadinStmts vs
  | loadText cs =>
    obtain rfl := Option.some.inj h
    rw [length_loadinStmts, List.length_map, Line.size]
  | label name => obtain rfl := Option.some.inj h; rfl
  | stmt st => obtain rfl := Option.some.inj h; rfl
  | cmd i => obtain rfl := Option.some.inj h; rfl
  | wait => obtain rfl := Option.some.inj h; rfl
  | run i => obtain rfl := Option.some.inj h; rfl

/-! The positions of labels. -/

section LabelPos

variable {name : Nat}

@[simp] theorem labelPos_cons_self (p : Nat) (ls : List Line) : labelPos name p (.label name :: ls) = some p := if_pos rfl

theorem labelPos_cons_of_ne {l : Line} (h : l ≠ .label name) (p : Nat) (ls : List Line) :
    labelPos name p (l :: ls) = labelPos name (p + l.size) ls := by
  cases l with
  | label n => exact if_neg fun hn => h (congrArg Line.label hn)
  | _ => rfl

/-- A label stands after the expansions of the lines before it. -/
theorem labelPos_append_label {before : List Line} (h : Line.label name ∉ before) (p : Nat) (after : List Line) :
    labelPos name p (before ++ .label name :: after) = some (p + (before.map Line.size).sum) := by
  induction before generalizing p with
  | nil => simp
  | cons l before ih =>
    obtain ⟨hl, hbefore⟩ : Line.label name ≠ l ∧ Line.label name ∉ before := by simpa using h
    rw [List.cons_append, labelPos_cons_of_ne hl.symm, ih hbefore, List.map_cons, List.sum_cons, Nat.add_assoc]

theorem labelPos_eq_none {ls : List Line} (h : Line.label name ∉ ls) (p : Nat) : labelPos name p ls = none := by
  induction ls generalizing p with
  | nil => rfl
  | cons l ls ih =>
    obtain ⟨hl, hls⟩ : Line.label name ≠ l ∧ Line.label name ∉ ls := by simpa using h
    rw [labelPos_cons_of_ne hl.symm, ih hls]

end LabelPos

/-- BIT1 to a label that no line defines has no expansion. -/
theorem expand_bit1_eq_none {all : List Line} {name : Nat} (h : Line.label name ∉ all) (p : Nat) (t : Fin 8) (k : Fin 32) :
    (Line.bit1 t k name).expand all p = none := by
  rw [Line.expand, labelPos_eq_none h, Option.map_none]

/-! The expansion of a list of lines. -/

section ExpandFrom

variable {all : List Line}

theorem expandFrom_cons {p : Nat} {l : Line} {ls : List Line} {prog : List HostStmt} :
    expandFrom all p (l :: ls) = some prog ↔
      ∃ sts rest, l.expand all p = some sts ∧ expandFrom all (p + l.size) ls = some rest ∧ prog = sts ++ rest := by
  rw [expandFrom]
  cases l.expand all p with
  | none => simp
  | some sts =>
    cases expandFrom all (p + l.size) ls with
    | none => simp
    | some rest => simp [eq_comm]

/-- `parts` are the expansions of the lines `ls` that begin at position `p`, one for each line, each at the position after
those before it. -/
def Expansions (all : List Line) (p : Nat) (ls : List Line) (parts : List (List HostStmt)) : Prop :=
  parts.length = ls.length ∧ ∀ (k : Nat) (l : Line), ls[k]? = some l →
    ∃ sts, parts[k]? = some sts ∧ l.expand all (p + ((ls.take k).map Line.size).sum) = some sts

theorem expansions_nil {p : Nat} {parts : List (List HostStmt)} : Expansions all p [] parts ↔ parts = [] := by
  simp [Expansions]

theorem expansions_cons {p : Nat} {l : Line} {ls : List Line} {parts : List (List HostStmt)} :
    Expansions all p (l :: ls) parts ↔
      ∃ sts rest, parts = sts :: rest ∧ l.expand all p = some sts ∧ Expansions all (p + l.size) ls rest := by
  constructor
  · rintro ⟨hlen, hparts⟩
    obtain ⟨sts, rest, rfl⟩ := List.exists_cons_of_length_eq_add_one hlen
    refine ⟨sts, rest, rfl, by simpa using hparts 0 l rfl, by simpa using hlen, fun k l' hk => ?_⟩
    simpa [Nat.add_assoc] using hparts (k + 1) l' hk
  · rintro ⟨sts, rest, rfl, hsts, hlen, hrest⟩
    refine ⟨by simp [hlen], fun k l' hk => ?_⟩
    cases k with
    | zero =>
      obtain rfl : l = l' := by simpa using hk
      exact ⟨sts, rfl, hsts⟩
    | succ k => simpa [Nat.add_assoc] using hrest k l' hk

/-- Lines assemble to the concatenation of their expansions. -/
theorem expandFrom_eq_some_iff {p : Nat} {ls : List Line} {prog : List HostStmt} :
    expandFrom all p ls = some prog ↔ ∃ parts, prog = parts.flatten ∧ Expansions all p ls parts := by
  induction ls generalizing p prog with
  | nil => simp [expandFrom, expansions_nil, eq_comm]
  | cons l ls ih =>
    rw [expandFrom_cons]
    constructor
    · rintro ⟨sts, rest, hsts, hrest, rfl⟩
      obtain ⟨parts, rfl, hparts⟩ := ih.1 hrest
      exact ⟨sts :: parts, rfl, expansions_cons.2 ⟨sts, parts, rfl, hsts, hparts⟩⟩
    · rintro ⟨parts, rfl, hparts⟩
      obtain ⟨sts, rest, rfl, hsts, hrest⟩ := expansions_cons.1 hparts
      exact ⟨sts, rest.flatten, hsts, ih.2 ⟨rest, rfl, hrest⟩, rfl⟩

/-- Lines of which one has an expansion nowhere do not assemble. -/
theorem expandFrom_eq_none {l : Line} (hl : ∀ p, l.expand all p = none) {ls : List Line} (hmem : l ∈ ls) (p : Nat) :
    expandFrom all p ls = none := by
  refine Option.eq_none_iff_forall_ne_some.2 fun prog h => ?_
  obtain ⟨parts, -, -, hparts⟩ := expandFrom_eq_some_iff.1 h
  obtain ⟨k, hk⟩ := List.mem_iff_getElem?.1 hmem
  obtain ⟨sts, -, hsts⟩ := hparts k l hk
  simp [hl] at hsts

end ExpandFrom

end Sys2Proof.Machine
end

section
/-! CERTIFICATE. The written form of a host program (30_encoding.md R77, R78; 40_alphabet.md R100, R101). -/

namespace Sys2Proof.Machine

/-- A US-ASCII character's code is its number. -/
theorem toNat_charCode {c : Char} (h : c.toNat < 0x80) : (charCode c).toNat = c.toNat := by
  rw [charCode, if_pos h, BitVec.toNat_ofNat, Nat.mod_eq_of_lt (by omega)]

/-- Settles O47: the mnemonics are eight closed words; each line's expansion is what its row of the table says. -/
theorem mnemonicsAndPseudoInstructionsExpand : Obligations.MnemonicsAndPseudoInstructionsExpand := by
  refine ⟨by decide, fun all p => ⟨rfl, fun _ => rfl, fun _ => rfl, fun _ => rfl, fun vs => ?loadin, fun _ => rfl,
    fun _ => toNat_charCode, by decide, fun _ _ => length_of_expand⟩⟩
  case loadin => exact ⟨_, rfl, List.length_mapIdx, fun k v hv => by rw [List.getElem?_mapIdx, hv, Option.map_some]⟩

/-- Settles O48: labels and expansions both count the sizes of the lines before. -/
theorem labelsResolveToTheirPositions : Obligations.LabelsResolveToTheirPositions := by
  refine ⟨fun name before after h => ?label, fun all p name t k => ⟨rfl, fun pos hpos => ?bit1, fun h => ?undefined⟩,
    fun ls prog => ?assemble, fun ls name t k hmem h => ?refused⟩
  case label => simpa using labelPos_append_label h 0 after
  case bit1 => rw [Line.expand, hpos, Option.map_some]
  case undefined => exact expand_bit1_eq_none h p t k
  case assemble => simpa [assemble, Expansions] using expandFrom_eq_some_iff (all := ls) (p := 0) (ls := ls) (prog := prog)
  case refused => exact expandFrom_eq_none (fun p => expand_bit1_eq_none h p t k) hmem 0

end Sys2Proof.Machine
end

section
/-! SUPPORT. The laws of the alphabet (40_alphabet.md R100 to R106): INV_TABLE inverts SYM_ROM, by either of its forms; which
codes are symbols; and the indices of a code sequence. -/

namespace Sys2Proof.Machine

/-! INV_TABLE. -/

/-- The entry of a code that is no symbol (R102). -/
def InvEntry.invalid : InvEntry := { valid := false, index := 0 }

@[simp] theorem invTableByRanges_symRom (i : Index) : invTableByRanges (symRom i) = { valid := true, index := i } := by
  revert i
  decide

/-- The range form gives a code the index whose symbol it is, or makes it invalid. -/
theorem invTableByRanges_cases (c : Byte) :
    symRom (invTableByRanges c).index = c ∨ invTableByRanges c = InvEntry.invalid := by
  revert c
  decide

theorem symRom_injective : Function.Injective symRom := by
  intro i j h
  have entries := congrArg invTableByRanges h
  rw [invTableByRanges_symRom, invTableByRanges_symRom] at entries
  exact congrArg InvEntry.index entries

/-- The search of R102 finds the index of a symbol, because no other index has that symbol. -/
@[simp] theorem invTable_symRom (i : Index) : invTable (symRom i) = { valid := true, index := i } := by
  unfold invTable
  split
  · next k found =>
    have same : symRom (BitVec.ofNat 5 k) = symRom i := by simpa using List.find?_some found
    rw [symRom_injective same]
  · next missing => simpa using List.find?_eq_none.1 missing i.toNat (List.mem_range.2 i.isLt)

/-- The search of R102 ends without an index where no index has the code as its symbol. -/
theorem invTable_of_not_symbol {c : Byte} (h : ∀ i, symRom i ≠ c) : invTable c = InvEntry.invalid := by
  unfold invTable
  split
  · next k found => exact absurd (by simpa using List.find?_some found) (h (BitVec.ofNat 5 k))
  · rfl

/-- The two forms of INV_TABLE agree (R103). -/
theorem invTableByRanges_eq_invTable (c : Byte) : invTableByRanges c = invTable c := by
  rcases invTableByRanges_cases c with symbol | invalid
  · rw [← symbol, invTableByRanges_symRom, invTable_symRom]
  · have noSymbol (i : Index) : symRom i ≠ c := by
      rintro rfl
      simp [InvEntry.invalid] at invalid
    rw [invalid, invTable_of_not_symbol noSymbol]

/-! Which codes are symbols. -/

theorem isSymbol_iff_exists {c : Byte} : isSymbol c = true ↔ ∃ i, symRom i = c := by
  constructor
  · contrapose!
    intro noSymbol
    simp [isSymbol, invTable_of_not_symbol noSymbol, InvEntry.invalid]
  · rintro ⟨i, rfl⟩
    simp [isSymbol]

/-- The symbols are the codes of the ranges of R105. -/
theorem isSymbol_iff_ranges {c : Byte} : isSymbol c = true ↔
    (0x30 ≤ c.toNat ∧ c.toNat ≤ 0x39) ∨ c.toNat = 0x61 ∨ (0x63 ≤ c.toNat ∧ c.toNat ≤ 0x68) ∨
    (0x6A ≤ c.toNat ∧ c.toNat ≤ 0x6B) ∨ (0x6D ≤ c.toNat ∧ c.toNat ≤ 0x6E) ∨ (0x70 ≤ c.toNat ∧ c.toNat ≤ 0x7A) := by
  rw [isSymbol, ← invTableByRanges_eq_invTable, invTableByRanges]
  split_ifs <;> simp <;> omega

theorem symbolToIndex_eq_some_iff {c : Byte} {i : Index} : symbolToIndex c = some i ↔ symRom i = c := by
  constructor
  · intro h
    obtain ⟨valid, index⟩ : isSymbol c = true ∧ (invTable c).index = i := by
      simpa [symbolToIndex, isSymbol] using h
    obtain ⟨k, rfl⟩ := isSymbol_iff_exists.1 valid
    rw [← index, invTable_symRom]
  · rintro rfl
    simp [symbolToIndex]

theorem symbolToIndex_eq_none_iff {c : Byte} : symbolToIndex c = none ↔ ¬ isSymbol c = true := by
  simp [symbolToIndex, isSymbol]

/-- The codes that are symbols are those of the 32 indices, each once. -/
theorem symbolCodes_perm :
    ((List.range 256).filter fun n => isSymbol (BitVec.ofNat 8 n)).Perm
      ((List.finRange 32).map fun k => (symRom (BitVec.ofFin k)).toNat) := by
  have codes_nodup : ((List.finRange 32).map fun k => (symRom (BitVec.ofFin k)).toNat).Nodup :=
    (List.nodup_finRange 32).map fun k l h => BitVec.ofFin.inj (symRom_injective (BitVec.eq_of_toNat_eq h))
  refine (List.perm_ext_iff_of_nodup (List.nodup_range.filter _) codes_nodup).2 fun n => ?_
  rw [List.mem_filter, List.mem_range, isSymbol_iff_exists, List.mem_map]
  constructor
  · rintro ⟨hn, i, hi⟩
    exact ⟨i.toFin, List.mem_finRange _, by rw [BitVec.ofFin_toFin, hi, BitVec.toNat_ofNat, Nat.mod_eq_of_lt hn]⟩
  · rintro ⟨k, -, rfl⟩
    exact ⟨BitVec.isLt _, BitVec.ofFin k, by rw [BitVec.ofNat_toNat, BitVec.setWidth_eq]⟩

/-! The indices of a code sequence. -/

/-- The indices of a code sequence are those whose symbols it is. -/
theorem symbolsToIndices_eq_some_iff {cs : List Byte} {d : List Index} :
    symbolsToIndices cs = some d ↔ d.map symRom = cs := by
  induction cs generalizing d with
  | nil => simp [symbolsToIndices, eq_comm]
  | cons c cs ih =>
    rw [symbolsToIndices_cons, List.map_eq_cons_iff]
    constructor
    · rintro ⟨i, is, hi, his, rfl⟩
      exact ⟨i, is, rfl, symbolToIndex_eq_some_iff.1 hi, ih.1 his⟩
    · rintro ⟨i, is, rfl, hi, his⟩
      exact ⟨i, is, symbolToIndex_eq_some_iff.2 hi, ih.2 his, rfl⟩

/-- A sequence of symbols has indices. -/
theorem exists_symbolsToIndices {cs : List Byte} (h : ∀ c ∈ cs, isSymbol c = true) : ∃ d, symbolsToIndices cs = some d := by
  have symbols : cs ∈ Set.range (List.map symRom) := by
    rw [Set.range_list_map]
    exact fun c hc => isSymbol_iff_exists.1 (h c hc)
  obtain ⟨d, hd⟩ := symbols
  exact ⟨d, symbolsToIndices_eq_some_iff.2 hd⟩

end Sys2Proof.Machine
end

section
/-! CERTIFICATE. The alphabet (40_alphabet.md R101 to R106). -/

namespace Sys2Proof.Machine

/-- Settles O7: each form inverts SYM_ROM and makes every code that is no symbol invalid. -/
theorem inverseTableEqualsItsRangeForm : Obligations.InverseTableEqualsItsRangeForm :=
  invTableByRanges_eq_invTable

/-- Settles O6: SymbolToIndex and SYM_ROM are one relation of codes and indices, read in its two directions. -/
theorem alphabetIsABijection : Obligations.AlphabetIsABijection :=
  ⟨fun _ => symbolToIndex_eq_some_iff.2 rfl, fun _ _ => symbolToIndex_eq_some_iff.1,
    symbolCodes_perm.length_eq, fun _ => isSymbol_iff_ranges⟩

/-- Settles O8: each of these codes lies outside the ranges of R105. -/
theorem otherCharactersAreRejected : Obligations.OtherCharactersAreRejected := by
  refine ⟨fun c h h' => ?uppercase, fun c h => ?high, ?letters, fun c h => ?gaps⟩
  case letters => decide
  case uppercase | high | gaps =>
    rw [symbolToIndex_eq_none_iff, isSymbol_iff_ranges]
    omega

end Sys2Proof.Machine
end

section
/-! SUPPORT. The completion of a command with a result: what it writes and what it keeps (44_host_interface.md R182). -/

namespace Sys2Proof.Machine

section Result

variable (r : List Byte) (s : State)

theorem State.keepsInputs_endWithResult : s.keepsInputs (s.endWithResult r) := by
  rw [endWithResult_eq]
  exact ⟨rfl, rfl, rfl, rfl⟩

theorem State.keepsHost_endWithResult : s.keepsHost (s.endWithResult r) := by
  rw [endWithResult_eq]
  exact ⟨rfl, rfl, rfl, rfl, rfl, rfl⟩

theorem State.read_endWithResult_of_lt_length {j : Nat} (hj : j < r.length) :
    Memory.read (s.endWithResult r).outBuf j = r[j]? := by
  rw [endWithResult_outBuf, Memory.read_writeFrom, if_pos (by omega), Nat.sub_zero]

theorem State.read_endWithResult_of_length_le {j : Nat} (hj : r.length ≤ j) :
    Memory.read (s.endWithResult r).outBuf j = Memory.read s.outBuf j := by
  rw [endWithResult_outBuf, Memory.read_writeFrom, if_neg (by omega)]

/-- A result of one unit for each cell of the input has the length that IN_LEN holds. -/
theorem State.endWithResult_outLen_of_length_eq (h : r.length = s.len) : (s.endWithResult r).outLen = s.inLen := by
  have fits : r.length < 2 ^ 32 := h ▸ s.inLen.isLt
  rw [endWithResult_outLen, setOutLen_of_lt fits, h, State.len, BitVec.ofNat_toNat, BitVec.setWidth_eq]

end Result

theorem exec_of_result {i : Instr} {s : State} {r : List Byte} (fits : s.len ≤ s.params.inDepth)
    (result : commandResult i s.input = some r) : exec i s = .next (s.afterInput.endWithResult r) := by
  rw [exec_eq_next_complete, State.complete_of_result fits result]

/-- A command with a result of one unit for each input cell completes with it: the result is in OUT, its length is IN_LEN,
and everything else is as before. -/
theorem exec_completes_with_cell_results {i : Instr} {s : State} {r : List Byte} (fits : s.len ≤ s.params.inDepth)
    (result : commandResult i s.input = some r) (length : r.length = s.len) :
    ∃ t, exec i s = .next t ∧ t.statusWord = 0x2#32 ∧ t.outLen = s.inLen ∧
      (∀ j, j < s.len → Memory.read t.outBuf j = r[j]?) ∧
      (∀ j, s.len ≤ j → Memory.read t.outBuf j = Memory.read s.outBuf j) ∧ s.keepsInputs t ∧ s.keepsHost t := by
  refine ⟨s.afterInput.endWithResult r, exec_of_result fits result, State.statusWord_endWithResult ..,
    s.afterInput.endWithResult_outLen_of_length_eq r length, fun j hj => ?result, fun j hj => ?others,
    s.afterInput.keepsInputs_endWithResult r, s.afterInput.keepsHost_endWithResult r⟩
  case result => exact s.afterInput.read_endWithResult_of_lt_length r (length ▸ hj)
  case others => exact s.afterInput.read_endWithResult_of_length_le r (length ▸ hj)

end Sys2Proof.Machine
end

section
/-! CERTIFICATE. The commands IDX2SYM and SYM2IDX (40_alphabet.md R107, R108). -/

namespace Sys2Proof.Machine

/-- The low five bits of a byte are its remainder modulo 32. -/
theorem extractLsb'_zero_five (v : Byte) : v.extractLsb' 0 5 = BitVec.ofNat 5 (v.toNat % 32) := by
  apply BitVec.eq_of_toNat_eq
  simp

/-- Settles O29: the result has the symbol of each cell's low five bits. -/
theorem idx2symCommandWritesItsSymbols : Obligations.Idx2symCommandWritesItsSymbols := by
  intro ign s fits
  have length : (indicesToSymbols s.input).length = s.len := by simp [indicesToSymbols]
  obtain ⟨t, runs, status, outLen, result, frame⟩ := exec_completes_with_cell_results (i := .idx2sym ign) fits rfl length
  refine ⟨t, runs, status, outLen, fun j v hj cell => ?_, frame⟩
  rw [result j hj, indicesToSymbols, List.getElem?_map, cell, Option.map_some, extractLsb'_zero_five]

/-- Settles O30: valid codes have indices, and the result is these as bytes. -/
theorem sym2idxCommandWritesItsIndices : Obligations.Sym2idxCommandWritesItsIndices := by
  intro ign s fits valid
  obtain ⟨d, hd⟩ := exists_symbolsToIndices valid
  have hresult : commandResult (.sym2idx ign) s.input = some (d.map fun i => i.setWidth 8) := by
    rw [commandResult, symbolsToIndexBytes, hd, Option.map_some]
  have length : (d.map fun i => i.setWidth 8).length = s.len := by
    rw [List.length_map, length_symbolsToIndices hd, State.length_input]
  obtain ⟨t, runs, status, outLen, result, frame⟩ := exec_completes_with_cell_results fits hresult length
  refine ⟨t, runs, status, outLen, fun j c hj cell => ?_, frame⟩
  rw [← symbolsToIndices_eq_some_iff.1 hd, List.getElem?_map] at cell
  obtain ⟨i, hi, symbol⟩ := Option.map_eq_some_iff.1 cell
  refine ⟨i, symbol, ?_⟩
  rw [result j hj, List.getElem?_map, hi, Option.map_some, BitVec.ofNat_toNat]

end Sys2Proof.Machine
end

section
/-! SUPPORT. The laws of ENCODE's result: its length, and its indices as the low digits of the value of the bytes
(41_encode.md R120 to R123). -/

namespace Sys2Proof.Machine

/-! Digits and values. -/

section Digits

variable {w : Nat}

@[simp] theorem drop_digits (V w L k : Nat) : (digits V w L).drop k = digits V w (L - k) := by
  induction k with
  | zero => rfl
  | succ k ih => rw [← List.tail_drop, ih, digits_tail, Nat.sub_sub]

/-- A value is the value of its low digits exactly if nothing of it lies above them. -/
theorem bigEndian_digits_eq_iff {V w L : Nat} : bigEndian (digits V w L) = V ↔ V >>> (w * L) = 0 := by
  rw [bigEndian_digits, Nat.mod_eq_iff_lt (Nat.two_pow_pos _).ne', Nat.shiftRight_eq_div_pow,
    Nat.div_eq_zero_iff_lt (Nat.two_pow_pos _)]

/-- Shifted right within its first element, a sequence's value is that element shifted. -/
theorem bigEndian_cons_shiftRight (d : BitVec w) (ds : List (BitVec w)) (k : Nat) :
    bigEndian (d :: ds) >>> (w * ds.length + k) = d.toNat >>> k := by
  rw [Nat.shiftRight_add, bigEndian, Nat.shiftRight_eq_div_pow _ (w * ds.length), Nat.mul_comm d.toNat,
    Nat.mul_add_div (Nat.two_pow_pos _), Nat.div_eq_of_lt (bigEndian_lt ds), Nat.add_zero]

end Digits

/-! The lengths of the full output and of what the flag leaves (R120). -/

theorem encodedLength_le_fullSymbols (n : Nat) (ign : Bool) : encodedLength n ign ≤ fullSymbols n := by
  unfold encodedLength
  split
  · exact Nat.sub_le _ _
  · exact le_rfl

/-- Bytes that leave a partial symbol have one symbol more than groups of five bits. -/
theorem fullSymbols_of_partial {n : Nat} (h : n % 5 ≠ 0) : fullSymbols n = 8 * n / 5 + 1 := by
  have surplus : 8 * n % 5 ≠ 0 := by omega
  unfold fullSymbols cdiv
  generalize 8 * n = bits at surplus
  omega

/-- The flag leaves the whole symbols. -/
theorem encodedLength_true (n : Nat) : encodedLength n true = 8 * n / 5 := by
  by_cases h : n % 5 = 0
  · rw [encodedLength, if_neg (by simp [h]), fullSymbols, cdiv]
    omega
  · rw [encodedLength, if_pos ⟨rfl, h⟩, fullSymbols_of_partial h, Nat.add_sub_cancel]

/-- Without the flag a partial symbol comes on top of them. -/
theorem encodedLength_false_of_partial {n : Nat} (h : n % 5 ≠ 0) : encodedLength n false = 8 * n / 5 + 1 := by
  rw [encodedLength, if_neg (by simp), fullSymbols_of_partial h]

theorem eight_mul_le_five_mul_fullSymbols (n : Nat) : 8 * n ≤ 5 * fullSymbols n := by
  unfold fullSymbols cdiv
  omega

/-! The output of Encode. -/

/-- The full output has the value of the bytes: its `S` digits have room for all their bits. -/
theorem val5_fullIndices (b : List Byte) : val5 (fullIndices b) = val8 b := by
  have room : val8 b < 2 ^ (5 * fullSymbols b.length) :=
    (bigEndian_lt b).trans_le (Nat.pow_le_pow_right (by decide) (eight_mul_le_five_mul_fullSymbols _))
  rw [val5, fullIndices, bigEndian_digits, Nat.mod_eq_of_lt room]

/-- Encode gives the low digits of the value of the bytes, as many as the flag leaves (R121 to R123). -/
theorem encodeBytes_eq_map_digits (b : List Byte) (ign : Bool) :
    encodeBytes b ign = (digits (val8 b) 5 (encodedLength b.length ign)).map symRom := by
  unfold encodeBytes encodedLength
  split
  · rw [← List.map_tail, fullIndices, digits_tail]
  · rfl

@[simp] theorem length_encodeBytes (b : List Byte) (ign : Bool) :
    (encodeBytes b ign).length = encodedLength b.length ign := by
  rw [encodeBytes_eq_map_digits, List.length_map, length_digits]

theorem getElem?_encodeBytes {b : List Byte} {ign : Bool} {j : Nat} (hj : j < encodedLength b.length ign) :
    (encodeBytes b ign)[j]? =
      some (symRom (BitVec.ofNat 5 (val8 b >>> (5 * (encodedLength b.length ign - 1 - j))))) := by
  rw [encodeBytes_eq_map_digits, List.getElem?_map, List.getElem?_eq_getElem (by simpa using hj), getElem_digits,
    Option.map_some]

end Sys2Proof.Machine
end

section
/-! SUPPORT. The completion of a command with a result of any length (44_host_interface.md R182). -/

namespace Sys2Proof.Machine

/-- A command with a result completes with it: the result is in OUT, its length in OUT_LEN if it fits, and everything else is
as before. -/
theorem exec_completes_with_result {i : Instr} {s : State} {r : List Byte} (fits : s.len ≤ s.params.inDepth)
    (result : commandResult i s.input = some r) :
    ∃ t, exec i s = .next t ∧ t.statusWord = 0x2#32 ∧ (r.length < 2 ^ 32 → t.outLen.toNat = r.length) ∧
      (∀ j, j < r.length → Memory.read t.outBuf j = r[j]?) ∧
      (∀ j, r.length ≤ j → Memory.read t.outBuf j = Memory.read s.outBuf j) ∧ s.keepsInputs t ∧ s.keepsHost t := by
  refine ⟨s.afterInput.endWithResult r, exec_of_result fits result, State.statusWord_endWithResult .., fun short => ?outLen,
    fun j hj => s.afterInput.read_endWithResult_of_lt_length r hj,
    fun j hj => s.afterInput.read_endWithResult_of_length_le r hj,
    s.afterInput.keepsInputs_endWithResult r, s.afterInput.keepsHost_endWithResult r⟩
  case outLen => rw [State.endWithResult_outLen, State.setOutLen_of_lt short, BitVec.toNat_ofNat, Nat.mod_eq_of_lt short]

end Sys2Proof.Machine
end

section
/-! CERTIFICATE. The command ENCODE (41_encode.md R125). -/

namespace Sys2Proof.Machine

/-- Settles O27: the result of ENCODE is the digits of the value of the input, of the length that the flag leaves. -/
theorem encodeCommandWritesItsSymbols : Obligations.EncodeCommandWritesItsSymbols := by
  intro ign s fits
  have length : (encodeBytes s.input ign).length = encodedLength s.len ign := by
    rw [length_encodeBytes, State.length_input]
  obtain ⟨t, runs, status, outLen, result, others, frame⟩ := exec_completes_with_result (i := .encode ign) fits rfl
  rw [length] at outLen result others
  refine ⟨t, runs, status, outLen, fun j hj => ?_, others, frame⟩
  have symbol := getElem?_encodeBytes (b := s.input) (ign := ign) (j := j)
  rw [State.length_input] at symbol
  rw [result j hj, symbol hj]

end Sys2Proof.Machine
end

section
/-! CERTIFICATE. The partial symbol (41_encode.md R126). -/

namespace Sys2Proof.Machine

/-- The partial symbol, in front of the whole ones, holds what the value has above their digits. -/
theorem encodeBytes_false_of_partial {b : List Byte} (h : b.length % 5 ≠ 0) :
    encodeBytes b false = symRom (BitVec.ofNat 5 (val8 b >>> (5 * (8 * b.length / 5)))) :: encodeBytes b true := by
  rw [encodeBytes_eq_map_digits, encodeBytes_eq_map_digits, encodedLength_false_of_partial h, encodedLength_true, digits_succ,
    List.map_cons]

/-- The symbol of an index is '0' exactly if the index is zero. -/
theorem symRom_eq_zero_iff {i : Index} : symRom i = 0x30#8 ↔ i = 0#5 :=
  symRom_injective.eq_iff (b := 0#5)

/-- What a byte has above its low three bits or more is not cut by taking it in five. -/
theorem setWidth_ushiftRight_eq_zero_iff {h : Byte} {j : Nat} (hj : 3 ≤ j) : (h >>> j).setWidth 5 = 0#5 ↔ h >>> j = 0#8 := by
  have short : (h >>> j).toNat < 32 := by
    have : 2 ^ 3 ≤ 2 ^ j := Nat.pow_le_pow_right (by decide) hj
    rw [BitVec.toNat_ushiftRight, Nat.shiftRight_eq_div_pow, Nat.div_lt_iff_lt_mul (Nat.two_pow_pos j)]
    omega
  rw [← BitVec.toNat_inj, ← BitVec.toNat_inj, BitVec.toNat_setWidth, Nat.mod_eq_of_lt short]
  rfl

/-- Settles O16: `k` is the number of input bits that the whole symbols leave over, and these are the top bits of the first
byte. -/
theorem partialSymbolHoldsTheTopBits : Obligations.PartialSymbolHoldsTheTopBits := by
  intro h tl k hk
  have left : 8 * (tl.length + 1) % 5 = k := by omega
  have whole : 5 * (8 * (h :: tl).length / 5) = 8 * tl.length + (8 - k) := by
    rw [List.length_cons]
    omega
  have top : val8 (h :: tl) >>> (5 * (8 * (h :: tl).length / 5)) = (h >>> (8 - k)).toNat := by
    rw [whole, val8, bigEndian_cons_shiftRight, BitVec.toNat_ushiftRight]
  refine ⟨?symbol, ?zero, digits (val8 (h :: tl)) 5 (8 * (h :: tl).length / 5), ?indices, ?value⟩
  case symbol =>
    have hpartial : (h :: tl).length % 5 ≠ 0 := by
      rw [List.length_cons]
      omega
    rw [encodeBytes_false_of_partial hpartial, top, BitVec.ofNat_toNat]
  case zero => rw [symRom_eq_zero_iff, setWidth_ushiftRight_eq_zero_iff (by omega)]
  case indices => rw [symbolsToIndices_eq_some_iff, encodeBytes_eq_map_digits, encodedLength_true]
  case value => rw [val5, bigEndian_digits_eq_iff, top, ← BitVec.toNat_inj, BitVec.toNat_ofNat, Nat.zero_mod]

end Sys2Proof.Machine
end

section
/-! SUPPORT. Bit streams by their values (20_memory.md R54): the bits of a sequence are the low bits of its value. -/

namespace Sys2Proof.Machine

/-- The low `N` bits of a number, most significant first. -/
def lowBits (V N : Nat) : List Bool := (List.range N).map fun i => V.testBit (N - 1 - i)

@[simp] theorem lowBits_zero (V : Nat) : lowBits V 0 = [] := rfl

theorem lowBits_succ (V N : Nat) : lowBits V (N + 1) = V.testBit N :: lowBits V N := by
  rw [lowBits, List.range_succ_eq_map, List.map_cons, List.map_map, lowBits]
  refine congrArg₂ List.cons (by simp) (List.map_congr_left fun i _ => ?_)
  simp only [Function.comp_apply, Nat.succ_eq_add_one]
  rw [show N + 1 - 1 - (i + 1) = N - 1 - i by omega]

/-- Low bits in two parts. -/
theorem lowBits_add (V M N : Nat) : lowBits V (M + N) = lowBits (V >>> N) M ++ lowBits V N := by
  induction M with
  | zero => simp
  | succ M ih => rw [Nat.succ_add, lowBits_succ, lowBits_succ, ih, Nat.testBit_shiftRight, Nat.add_comm N M, List.cons_append]

/-- Only the value modulo `2^N` matters to `N` bits. -/
theorem lowBits_mod (V N : Nat) : lowBits (V % 2 ^ N) N = lowBits V N := by
  refine List.map_congr_left fun i hi => ?_
  have hi := List.mem_range.1 hi
  rw [Nat.testBit_mod_two_pow, decide_eq_true (by omega : N - 1 - i < N), Bool.true_and]

@[simp] theorem lowBits_zero_left (N : Nat) : lowBits 0 N = List.replicate N false := by
  induction N with
  | zero => rfl
  | succ N ih => rw [lowBits_succ, ih, Nat.zero_testBit, List.replicate_succ]

/-- Above the bits of a value stand zeros. -/
theorem lowBits_add_of_lt {V N : Nat} (h : V < 2 ^ N) (M : Nat) :
    lowBits V (M + N) = List.replicate M false ++ lowBits V N := by
  rw [lowBits_add, Nat.shiftRight_eq_div_pow, Nat.div_eq_of_lt h, lowBits_zero_left]

section BitStream

variable {w : Nat}

theorem map_getMsbD_range (d : BitVec w) : (List.range w).map d.getMsbD = lowBits d.toNat w := by
  refine List.map_congr_left fun i hi => ?_
  rw [BitVec.getMsbD, decide_eq_true (List.mem_range.1 hi), Bool.true_and, BitVec.getLsbD]

/-- The bits of a sequence are those of its value. -/
theorem bitStream_eq_lowBits (ds : List (BitVec w)) : bitStream ds = lowBits (bigEndian ds) (w * ds.length) := by
  induction ds with
  | nil => rfl
  | cons d ds ih =>
    have high : bigEndian (d :: ds) >>> (w * ds.length) = d.toNat := bigEndian_cons_shiftRight d ds 0
    have low : bigEndian (d :: ds) % 2 ^ (w * ds.length) = bigEndian ds := by
      rw [bigEndian, Nat.mul_comm, Nat.mul_add_mod, Nat.mod_eq_of_lt (bigEndian_lt ds)]
    calc bitStream (d :: ds) = lowBits d.toNat w ++ lowBits (bigEndian ds) (w * ds.length) := by
          rw [← ih, ← map_getMsbD_range, bitStream, bitStream, List.flatMap_cons]
      _ = lowBits (bigEndian (d :: ds)) (w + w * ds.length) := by
          rw [lowBits_add, high, ← lowBits_mod (bigEndian (d :: ds)), low]
      _ = lowBits (bigEndian (d :: ds)) (w * (d :: ds).length) := by
          rw [List.length_cons, Nat.mul_succ, Nat.add_comm]

end BitStream

end Sys2Proof.Machine
end

section
/-! CERTIFICATE. The output of ENCODE as bits (41_encode.md R121). -/

namespace Sys2Proof.Machine

/-- Settles O13: the indices have the value of the bytes, so their bits are those of the bytes with zeros above. -/
theorem encodeSlicesThePaddedBitstream : Obligations.EncodeSlicesThePaddedBitstream := by
  refine fun b => ⟨?bits, ?symbols⟩
  case bits =>
    have room := eight_mul_le_five_mul_fullSymbols b.length
    have length : (fullIndices b).length = fullSymbols b.length := length_digits ..
    calc bitStream (fullIndices b) = lowBits (val5 (fullIndices b)) (5 * (fullIndices b).length) := bitStream_eq_lowBits _
      _ = lowBits (val8 b) (5 * fullSymbols b.length - 8 * b.length + 8 * b.length) := by
          rw [val5_fullIndices, length, Nat.sub_add_cancel room]
      _ = List.replicate (5 * fullSymbols b.length - 8 * b.length) false ++ lowBits (val8 b) (8 * b.length) :=
          lowBits_add_of_lt (bigEndian_lt b) _
      _ = List.replicate (5 * fullSymbols b.length - 8 * b.length) false ++ bitStream b := by
          rw [bitStream_eq_lowBits, val8]
  case symbols => simp [encodeBytes]

end Sys2Proof.Machine
end

section
/-! CERTIFICATE. The group datapath of the encoder (41_encode.md R127): the formulas keep the value of each group, so the
groups together have the value of the bytes, whose low digits Encode gives. -/

namespace Sys2Proof.Machine

/-! The formulas of a group, as numbers. -/

/-- A symbol across two bytes: the low `p` bits of one above the top `q` bits of the next. -/
theorem toNat_symbol_across (x y : Byte) {p q : Nat} (h : p + q = 5) :
    ((((x &&& BitVec.ofNat 8 (2 ^ p - 1)) <<< q) ||| (y >>> (8 - q))).setWidth 5).toNat =
      x.toNat % 2 ^ p * 2 ^ q + y.toNat / 2 ^ (8 - q) := by
  have mask : (x &&& BitVec.ofNat 8 (2 ^ p - 1)).toNat = x.toNat % 2 ^ p := by
    have : 2 ^ p ≤ 2 ^ 5 := Nat.pow_le_pow_right (by decide) (by omega)
    rw [BitVec.toNat_and, BitVec.toNat_ofNat, Nat.mod_eq_of_lt (by omega), Nat.and_two_pow_sub_one_eq_mod]
  have high : x.toNat % 2 ^ p * 2 ^ q + 2 ^ q ≤ 2 ^ 5 := by
    calc x.toNat % 2 ^ p * 2 ^ q + 2 ^ q = (x.toNat % 2 ^ p + 1) * 2 ^ q := by ring
      _ ≤ 2 ^ p * 2 ^ q := Nat.mul_le_mul_right _ (Nat.mod_lt _ (Nat.two_pow_pos p))
      _ = 2 ^ 5 := by rw [← Nat.pow_add, h]
  have shifted : x.toNat % 2 ^ p * 2 ^ q < 2 ^ 8 := by
    have := Nat.two_pow_pos q
    omega
  have low : y.toNat / 2 ^ (8 - q) < 2 ^ q := by
    rw [Nat.div_lt_iff_lt_mul (Nat.two_pow_pos _), ← Nat.pow_add, show q + (8 - q) = 8 by omega]
    exact y.isLt
  rw [BitVec.toNat_setWidth, BitVec.toNat_or, BitVec.toNat_shiftLeft, BitVec.toNat_ushiftRight, mask, Nat.shiftLeft_eq,
    Nat.mod_eq_of_lt shifted, Nat.shiftRight_eq_div_pow, ← Nat.shiftLeft_eq,
    ← Nat.shiftLeft_add_eq_or_of_lt low, Nat.shiftLeft_eq, Nat.mod_eq_of_lt (by omega)]

/-- A symbol within one byte: five bits of it. -/
theorem toNat_symbol_within (x : Byte) (j : Nat) :
    (((x >>> j) &&& 0x1F#8).setWidth 5).toNat = x.toNat / 2 ^ j % 32 := by
  rw [BitVec.toNat_setWidth, BitVec.toNat_and, BitVec.toNat_ushiftRight, Nat.shiftRight_eq_div_pow]
  exact (congrArg (· % 32) (Nat.and_two_pow_sub_one_eq_mod _ 5)).trans (Nat.mod_mod _ _)

/-- The eight formulas keep the value of a group. -/
theorem val5_groupSymbols (b0 b1 b2 b3 b4 : Byte) : val5 (groupSymbols b0 b1 b2 b3 b4) = val8 [b0, b1, b2, b3, b4] := by
  have s0 : ((b0 >>> 3).setWidth 5).toNat = b0.toNat / 8 := by
    rw [BitVec.toNat_setWidth, BitVec.toNat_ushiftRight, Nat.shiftRight_eq_div_pow]
    omega
  have s1 := toNat_symbol_across b0 b1 (p := 3) (q := 2) rfl
  have s2 := toNat_symbol_within b1 1
  have s3 := toNat_symbol_across b1 b2 (p := 1) (q := 4) rfl
  have s4 := toNat_symbol_across b2 b3 (p := 4) (q := 1) rfl
  have s5 := toNat_symbol_within b3 2
  have s6 := toNat_symbol_across b3 b4 (p := 2) (q := 3) rfl
  have s7 := toNat_symbol_within b4 0
  simp only [Nat.reducePow, Nat.reduceSub, BitVec.ushiftRight_zero] at s1 s2 s3 s4 s5 s6 s7
  simp only [val5, val8, groupSymbols, bigEndian, s0, s1, s2, s3, s4, s5, s6, s7, List.length_cons, List.length_nil]
  omega

/-! The groups of a byte sequence, taken backwards. -/

theorem length_groupSymbols (b0 b1 b2 b3 b4 : Byte) : (groupSymbols b0 b1 b2 b3 b4).length = 8 := rfl

/-- Missing leading bytes, taken as zero, add nothing to the value. -/
theorem val8_zero_cons (b : List Byte) : val8 (0#8 :: b) = val8 b := by
  simp [val8, bigEndian]

/-- The groups have room for the full output. -/
theorem fullSymbols_le_length_groupsBackward (b : List Byte) : fullSymbols b.length ≤ (groupsBackward b).length := by
  induction b using groupsBackward.induct with
  | case1 b4 b3 b2 b1 b0 rest ih =>
    simp only [groupsBackward, List.length_append, List.length_reverse, length_groupSymbols, List.length_cons, fullSymbols,
      cdiv] at ih ⊢
    omega
  | _ => simp [groupsBackward, length_groupSymbols, fullSymbols, cdiv]

/-- The groups have the value of the bytes. -/
theorem val5_reverse_groupsBackward (b : List Byte) : val5 (groupsBackward b).reverse = val8 b.reverse := by
  induction b using groupsBackward.induct with
  | case1 b4 b3 b2 b1 b0 rest ih =>
    have group := val5_groupSymbols b0 b1 b2 b3 b4
    simp only [val5, val8] at ih group
    have bytes : (b4 :: b3 :: b2 :: b1 :: b0 :: rest).reverse = rest.reverse ++ [b0, b1, b2, b3, b4] := by simp
    rw [groupsBackward, List.reverse_append, List.reverse_reverse, bytes, val5, val8, bigEndian_append, bigEndian_append, ih,
      group]
    rfl
  | case6 => rfl
  | _ => -- a first group with missing leading bytes
    simp [groupsBackward, val5_groupSymbols, val8_zero_cons]

/-- The first `L` indices that the groups give, last index first, are the low digits of the value of the bytes. -/
theorem reverse_take_groupsBackward (b : List Byte) {L : Nat} (hL : L ≤ fullSymbols b.length) :
    ((groupsBackward b.reverse).take L).reverse = digits (val8 b) 5 L := by
  have room : L ≤ (groupsBackward b.reverse).length := by
    have := fullSymbols_le_length_groupsBackward b.reverse
    rw [List.length_reverse] at this
    omega
  have groups := digits_bigEndian (groupsBackward b.reverse).reverse
  rw [← val5, val5_reverse_groupsBackward, List.reverse_reverse, List.length_reverse] at groups
  rw [List.reverse_take, ← groups, drop_digits, Nat.sub_sub_self room]

/-- Settles O24: the groups and Encode give the same digits of the same value. -/
theorem encodeByGroupsIsEncode : Obligations.EncodeByGroupsIsEncode := by
  intro b ign
  rw [encodeByGroups, reverse_take_groupsBackward b (encodedLength_le_fullSymbols _ _), encodeBytes_eq_map_digits]

end Sys2Proof.Machine
end

section
/-! SUPPORT. The laws of DECODE's result: its length, its bytes as the low digits of the value of the indices, and when there
is none (42_decode.md R140 to R144). -/

namespace Sys2Proof.Machine

/-! The lengths of the full output and of what the flag leaves (R140). -/

theorem decodedLength_le_fullBytes (m : Nat) (ign : Bool) : decodedLength m ign ≤ fullBytes m := by
  unfold decodedLength
  split
  · exact Nat.sub_le _ _
  · exact le_rfl

theorem fullBytes_le (m : Nat) : fullBytes m ≤ m := by
  unfold fullBytes cdiv
  omega

theorem five_mul_le_eight_mul_fullBytes (m : Nat) : 5 * m ≤ 8 * fullBytes m := by
  unfold fullBytes cdiv
  omega

/-- Indices that leave a partial byte have one byte more than groups of eight bits. -/
theorem fullBytes_of_partial {m : Nat} (h : m % 8 ≠ 0) : fullBytes m = 5 * m / 8 + 1 := by
  have surplus : 5 * m % 8 ≠ 0 := by omega
  unfold fullBytes cdiv
  generalize 5 * m = bits at surplus
  omega

/-- The flag leaves the whole bytes. -/
theorem decodedLength_true (m : Nat) : decodedLength m true = 5 * m / 8 := by
  by_cases h : m % 8 = 0
  · rw [decodedLength, if_neg (by simp [h]), fullBytes, cdiv]
    omega
  · rw [decodedLength, if_pos ⟨rfl, h⟩, fullBytes_of_partial h, Nat.add_sub_cancel]

/-- Without the flag a partial byte comes on top of them. -/
theorem decodedLength_false_of_partial {m : Nat} (h : m % 8 ≠ 0) : decodedLength m false = 5 * m / 8 + 1 := by
  rw [decodedLength, if_neg (by simp), fullBytes_of_partial h]

/-! The output of Decode. -/

/-- The full output has the value of the indices: its `B` bytes have room for all their bits. -/
theorem val8_fullOutput (d : List Index) : val8 (fullOutput d) = val5 d := by
  have room : val5 d < 2 ^ (8 * fullBytes d.length) :=
    (bigEndian_lt d).trans_le (Nat.pow_le_pow_right (by decide) (five_mul_le_eight_mul_fullBytes _))
  rw [val8, fullOutput, bigEndian_digits, Nat.mod_eq_of_lt room]

/-- The output is the low bytes of the value of the indices, as many as the flag leaves (R141, R142). -/
theorem decodeIndices_eq_digits (d : List Index) (ign : Bool) :
    decodeIndices d ign = digits (val5 d) 8 (decodedLength d.length ign) := by
  unfold decodeIndices decodedLength
  split
  · rw [fullOutput, digits_tail]
  · rfl

/-- Decode of valid codes gives the low bytes of the value of their indices. -/
theorem decodeSymbols_of_indices {s : List Byte} {d : List Index} (h : symbolsToIndices s = some d) (ign : Bool) :
    decodeSymbols s ign = some (digits (val5 d) 8 (decodedLength s.length ign)) := by
  rw [decodeSymbols, h, Option.map_some, decodeIndices_eq_digits, length_symbolsToIndices h]

/-- A code sequence has no indices exactly if one of its codes is no symbol. -/
theorem symbolsToIndices_eq_none_iff {cs : List Byte} : symbolsToIndices cs = none ↔ ∃ c ∈ cs, isSymbol c = false := by
  constructor
  · contrapose!
    intro valid
    obtain ⟨d, hd⟩ := exists_symbolsToIndices fun c hc => Bool.ne_false_iff.1 (valid c hc)
    simp [hd]
  · rintro ⟨c, hc, invalid⟩
    refine Option.eq_none_iff_forall_ne_some.2 fun d hd => ?_
    rw [← symbolsToIndices_eq_some_iff.1 hd] at hc
    obtain ⟨i, -, rfl⟩ := List.mem_map.1 hc
    simp [isSymbol] at invalid

end Sys2Proof.Machine
end

section
/-! CERTIFICATE. The group datapath of the decoder (42_decode.md R147): the formulas keep the value of each group, so the
groups together have the value of the indices, whose low bytes Decode gives; and two sets of formulas that both keep the value
of a group invert each other. -/

namespace Sys2Proof.Machine

/-! The formulas of a group, as numbers: a byte is filled from its top, one field of an index at a time. -/

/-- Fields that share no bit add up. -/
theorem toNat_or_of_lt {x y : Byte} {a k : Nat} (high : x.toNat = a * 2 ^ k) (low : y.toNat < 2 ^ k) :
    (x ||| y).toNat = a * 2 ^ k + y.toNat := by
  rw [BitVec.toNat_or, high, Nat.mul_comm, Nat.two_pow_add_eq_or_of_lt low]

/-- A whole index moved up. -/
theorem toNat_index_shiftLeft (s : Index) {k : Nat} (hk : k ≤ 3) : (s.setWidth 8 <<< k).toNat = s.toNat * 2 ^ k := by
  have fits : s.toNat * 2 ^ k < 2 ^ 8 := by
    calc s.toNat * 2 ^ k < 2 ^ 5 * 2 ^ k := Nat.mul_lt_mul_of_pos_right s.isLt (Nat.two_pow_pos k)
      _ ≤ 2 ^ 5 * 2 ^ 3 := Nat.mul_le_mul_left _ (Nat.pow_le_pow_right (by decide) hk)
  have wide : s.toNat < 2 ^ 8 := s.isLt.trans (by decide)
  rw [BitVec.toNat_shiftLeft, BitVec.toNat_setWidth, Nat.mod_eq_of_lt wide, Nat.shiftLeft_eq, Nat.mod_eq_of_lt fits]

/-- The low `p` bits of an index at the top of a byte. -/
theorem toNat_index_masked (s : Index) {p k : Nat} (h : p + k = 8) :
    ((s.setWidth 8 &&& BitVec.ofNat 8 (2 ^ p - 1)) <<< k).toNat = s.toNat % 2 ^ p * 2 ^ k := by
  have wide : s.toNat < 2 ^ 8 := s.isLt.trans (by decide)
  have mask : 2 ^ p - 1 < 2 ^ 8 := by
    have : 2 ^ p ≤ 2 ^ 8 := Nat.pow_le_pow_right (by decide) (by omega)
    omega
  have fits : s.toNat % 2 ^ p * 2 ^ k < 2 ^ 8 := by
    rw [← h, Nat.pow_add]
    exact Nat.mul_lt_mul_of_pos_right (Nat.mod_lt _ (Nat.two_pow_pos p)) (Nat.two_pow_pos k)
  rw [BitVec.toNat_shiftLeft, BitVec.toNat_and, BitVec.toNat_setWidth, BitVec.toNat_ofNat, Nat.mod_eq_of_lt wide,
    Nat.mod_eq_of_lt mask, Nat.and_two_pow_sub_one_eq_mod, Nat.shiftLeft_eq, Nat.mod_eq_of_lt fits]

/-- A whole index added below what a byte holds. -/
theorem toNat_or_index {x : Byte} {a k : Nat} (high : x.toNat = a * 2 ^ (5 + k)) (hk : k ≤ 3) (s : Index) :
    (x ||| s.setWidth 8 <<< k).toNat = (a * 32 + s.toNat) * 2 ^ k := by
  have low : s.toNat * 2 ^ k < 2 ^ (5 + k) := by
    rw [Nat.pow_add]
    exact Nat.mul_lt_mul_of_pos_right s.isLt (Nat.two_pow_pos k)
  have field := toNat_index_shiftLeft s hk
  rw [toNat_or_of_lt high (field ▸ low), field, Nat.pow_add]
  ring

/-- The top bits of an index added in the `k` free bits at the bottom of a byte. -/
theorem toNat_or_index_top {x : Byte} {a k : Nat} (high : x.toNat = a * 2 ^ k) (hk : k ≤ 5) (s : Index) :
    (x ||| s.setWidth 8 >>> (5 - k)).toNat = a * 2 ^ k + s.toNat / 2 ^ (5 - k) := by
  have wide : s.toNat < 2 ^ 8 := s.isLt.trans (by decide)
  have field : (s.setWidth 8 >>> (5 - k)).toNat = s.toNat / 2 ^ (5 - k) := by
    rw [BitVec.toNat_ushiftRight, BitVec.toNat_setWidth, Nat.mod_eq_of_lt wide, Nat.shiftRight_eq_div_pow]
  have low : s.toNat / 2 ^ (5 - k) < 2 ^ k := by
    rw [Nat.div_lt_iff_lt_mul (Nat.two_pow_pos _), ← Nat.pow_add, Nat.add_sub_cancel' hk]
    exact s.isLt
  rw [toNat_or_of_lt high (field ▸ low), field]

/-- The five formulas keep the value of a group. -/
theorem val8_groupBytes (s0 s1 s2 s3 s4 s5 s6 s7 : Index) :
    val8 (groupBytes s0 s1 s2 s3 s4 s5 s6 s7) = val5 [s0, s1, s2, s3, s4, s5, s6, s7] := by
  have b0 := toNat_or_index_top (toNat_index_shiftLeft s0 (k := 3) (by decide)) (by decide) s1
  have b1 := toNat_or_index_top
    (toNat_or_index (k := 1) (toNat_index_masked s1 (p := 2) (k := 6) rfl) (by decide) s2) (by decide) s3
  have b2 := toNat_or_index_top (toNat_index_masked s3 (p := 4) (k := 4) rfl) (by decide) s4
  have b3 := toNat_or_index_top
    (toNat_or_index (k := 2) (toNat_index_masked s4 (p := 1) (k := 7) rfl) (by decide) s5) (by decide) s6
  have b4 := toNat_or_index_top (toNat_index_masked s6 (p := 3) (k := 5) rfl) (by decide) s7
  simp only [Nat.reducePow, Nat.reduceSub, BitVec.ushiftRight_zero] at b0 b1 b2 b3 b4
  simp only [val8, val5, groupBytes, bigEndian, b0, b1, b2, b3, b4, List.length_cons, List.length_nil]
  omega

/-! The two sets of formulas. -/

/-- Sequences of one length with one value are the same. -/
theorem bigEndian_injective_of_length {w : Nat} {a b : List (BitVec w)} (length : a.length = b.length)
    (value : bigEndian a = bigEndian b) : a = b := by
  rw [← digits_bigEndian a, value, length, digits_bigEndian]

/-- Settles O23: either set of formulas keeps the value and the length, so both together give the group back. -/
theorem groupFormulasInvertEachOther : Obligations.GroupFormulasInvertEachOther := by
  refine ⟨fun b0 b1 b2 b3 b4 => ⟨_, _, _, _, _, _, _, _, rfl, ?bytes⟩,
    fun s0 s1 s2 s3 s4 s5 s6 s7 => ⟨_, _, _, _, _, rfl, ?indices⟩⟩
  case bytes =>
    exact bigEndian_injective_of_length rfl ((val8_groupBytes ..).trans (val5_groupSymbols b0 b1 b2 b3 b4))
  case indices =>
    exact bigEndian_injective_of_length rfl
      ((val5_groupSymbols ..).trans (val8_groupBytes s0 s1 s2 s3 s4 s5 s6 s7))

/-! The groups of an index sequence, taken backwards. -/

theorem length_groupBytes (s0 s1 s2 s3 s4 s5 s6 s7 : Index) : (groupBytes s0 s1 s2 s3 s4 s5 s6 s7).length = 5 := rfl

/-- Missing leading indices, taken as zero, add nothing to the value. -/
theorem val5_zero_cons (d : List Index) : val5 (0#5 :: d) = val5 d := by
  simp [val5, bigEndian]

/-- The groups have room for the full output. -/
theorem fullBytes_le_length_octetsBackward (d : List Index) : fullBytes d.length ≤ (octetsBackward d).length := by
  induction d using octetsBackward.induct with
  | case1 s7 s6 s5 s4 s3 s2 s1 s0 rest ih =>
    simp only [octetsBackward, List.length_append, List.length_reverse, length_groupBytes, List.length_cons, fullBytes,
      cdiv] at ih ⊢
    omega
  | _ => simp [octetsBackward, length_groupBytes, fullBytes, cdiv]

/-- The groups have the value of the indices. -/
theorem val8_reverse_octetsBackward (d : List Index) : val8 (octetsBackward d).reverse = val5 d.reverse := by
  induction d using octetsBackward.induct with
  | case1 s7 s6 s5 s4 s3 s2 s1 s0 rest ih =>
    have group := val8_groupBytes s0 s1 s2 s3 s4 s5 s6 s7
    simp only [val5, val8] at ih group
    have indices : (s7 :: s6 :: s5 :: s4 :: s3 :: s2 :: s1 :: s0 :: rest).reverse =
      rest.reverse ++ [s0, s1, s2, s3, s4, s5, s6, s7] := by simp
    rw [octetsBackward, List.reverse_append, List.reverse_reverse, indices, val5, val8, bigEndian_append, bigEndian_append,
      ih, group]
    rfl
  | case9 => rfl
  | _ => -- a first group with missing leading indices
    simp [octetsBackward, val8_groupBytes, val5_zero_cons]

/-- Taken from the end, elements of a sequence are the low digits of its value. -/
theorem reverse_take_eq_digits {w : Nat} (backward : List (BitVec w)) {L : Nat} (hL : L ≤ backward.length) :
    (backward.take L).reverse = digits (bigEndian backward.reverse) w L := by
  have whole := digits_bigEndian backward.reverse
  rw [List.length_reverse] at whole
  rw [List.reverse_take, ← Nat.sub_sub_self hL, ← drop_digits, whole, Nat.sub_sub_self hL]

/-- The first `L` bytes that the groups give, last byte first, are the low bytes of the value of the indices. -/
theorem reverse_take_octetsBackward (d : List Index) {L : Nat} (hL : L ≤ fullBytes d.length) :
    ((octetsBackward d.reverse).take L).reverse = digits (val5 d) 8 L := by
  have room := fullBytes_le_length_octetsBackward d.reverse
  rw [List.length_reverse] at room
  rw [reverse_take_eq_digits _ (hL.trans room), ← val8, val8_reverse_octetsBackward, List.reverse_reverse]

/-- Settles O25: the groups and Decode give the same bytes of the same value, and none from the same sequences. -/
theorem decodeByGroupsIsDecode : Obligations.DecodeByGroupsIsDecode := by
  intro s ign
  refine congrArg (Option.map · (symbolsToIndices s)) (funext fun d => ?_)
  rw [reverse_take_octetsBackward d (decodedLength_le_fullBytes _ _), decodeIndices_eq_digits]

end Sys2Proof.Machine
end

section
/-! CERTIFICATE. The output of DECODE as bits, and when there is none (42_decode.md R141, R143). -/

namespace Sys2Proof.Machine

/-- Of two sequences with one value the longer one, in bits, is the other with zero bits in front. -/
theorem bitStream_eq_of_bigEndian_eq {v w : Nat} {a : List (BitVec v)} {b : List (BitVec w)}
    (value : bigEndian a = bigEndian b) (room : w * b.length ≤ v * a.length) :
    bitStream a = List.replicate (v * a.length - w * b.length) false ++ bitStream b := by
  calc bitStream a = lowBits (bigEndian b) (v * a.length - w * b.length + w * b.length) := by
        rw [bitStream_eq_lowBits, value, Nat.sub_add_cancel room]
    _ = List.replicate (v * a.length - w * b.length) false ++ lowBits (bigEndian b) (w * b.length) :=
        lowBits_add_of_lt (bigEndian_lt b) _
    _ = List.replicate (v * a.length - w * b.length) false ++ bitStream b := by rw [bitStream_eq_lowBits]

/-- Settles O14: the bytes have the value of the indices, so their bits are those of the indices with zeros above. -/
theorem decodeSlicesThePaddedBitstream : Obligations.DecodeSlicesThePaddedBitstream := by
  intro s d hd
  have length : (fullOutput d).length = fullBytes d.length := length_digits ..
  have bits := bitStream_eq_of_bigEndian_eq (val8_fullOutput d) (length ▸ five_mul_le_eight_mul_fullBytes d.length)
  rw [length, length_symbolsToIndices hd] at bits
  exact ⟨fullOutput d, by simp [decodeSymbols, hd, decodeIndices], bits⟩

/-- Settles O15: the flag is looked at only after the indices are there. -/
theorem decodeFailsExactlyOnAnInvalidCode : Obligations.DecodeFailsExactlyOnAnInvalidCode := by
  intro s ign
  rw [decodeSymbols, Option.map_eq_none_iff, symbolsToIndices_eq_none_iff]

end Sys2Proof.Machine
end

section
/-! CERTIFICATE. The partial byte (42_decode.md R146). -/

namespace Sys2Proof.Machine

/-- The widths that R146 lists are the bits that the whole bytes leave over. -/
theorem partialBits_table {m : Nat} (h : m % 8 ≠ 0) : [8, 5, 2, 7, 4, 1, 6, 3].getD (m % 8) 0 = 5 * m % 8 := by
  have table : ∀ k < 8, k ≠ 0 → [8, 5, 2, 7, 4, 1, 6, 3].getD k 0 = 5 * k % 8 := by decide
  rw [table _ (Nat.mod_lt _ (by decide)) h, Nat.mul_mod_mod]

/-- The lengths that R146 lists are those of the whole bytes. -/
theorem wholeBytes_table (m : Nat) : 5 * (m / 8) + [0, 0, 1, 1, 2, 3, 3, 4].getD (m % 8) 0 = 5 * m / 8 := by
  have table : ∀ k < 8, [0, 0, 1, 1, 2, 3, 3, 4].getD k 0 = 5 * k / 8 := by decide
  rw [table _ (Nat.mod_lt _ (by decide))]
  omega

/-- Above its whole bytes a value has the bits that these leave over. -/
theorem val5_shiftRight_lt (d : List Index) :
    val5 d >>> (8 * (5 * d.length / 8)) < 2 ^ (5 * d.length % 8) := by
  rw [Nat.shiftRight_eq_div_pow, Nat.div_lt_iff_lt_mul (Nat.two_pow_pos _), ← Nat.pow_add, Nat.mod_add_div]
  exact bigEndian_lt d

/-- Settles O17: without the flag one byte more is taken of the value, and it holds what lies above the whole bytes. -/
theorem partialByteHoldsTheTopBits : Obligations.PartialByteHoldsTheTopBits := by
  intro s d hd hpartial
  have whole : cdiv (5 * s.length) 8 - 1 = 5 * s.length / 8 := by
    rw [← fullBytes, fullBytes_of_partial hpartial, Nat.add_sub_cancel]
  rw [whole, partialBits_table hpartial, wholeBytes_table]
  refine ⟨digits (val5 d) 8 (5 * s.length / 8), ?flag, ?noFlag, ?bound, bigEndian_digits_eq_iff, length_digits ..⟩
  case flag => rw [decodeSymbols_of_indices hd, decodedLength_true]
  case noFlag => rw [decodeSymbols_of_indices hd, decodedLength_false_of_partial hpartial, digits_succ]
  case bound => exact length_symbolsToIndices hd ▸ val5_shiftRight_lt d

end Sys2Proof.Machine
end

section
/-! CERTIFICATE. The command DECODE (42_decode.md R145). -/

namespace Sys2Proof.Machine

/-- Settles O28: the result of DECODE is the low bytes of the value of the indices, of the length that the flag leaves; it is
no longer than the input, so OUT_LEN has room for its length. -/
theorem decodeCommandWritesItsBytes : Obligations.DecodeCommandWritesItsBytes := by
  intro ign s d fits hd
  have decoded := decodeSymbols_of_indices hd ign
  rw [State.length_input] at decoded
  obtain ⟨t, runs, status, outLen, result, others, frame⟩ := exec_completes_with_result (i := .decode ign) fits decoded
  rw [length_digits] at outLen result others
  have short : decodedLength s.len ign < 2 ^ 32 :=
    ((decodedLength_le_fullBytes _ _).trans (fullBytes_le _)).trans_lt s.inLen.isLt
  refine ⟨t, runs, status, outLen short, fun j hj => ?_, others, frame⟩
  rw [result j hj, List.getElem?_eq_getElem (by simpa using hj), getElem_digits]

end Sys2Proof.Machine
end

section
/-! SUPPORT. The lengths of Encode and Decode over whole groups of five bytes and eight symbols, and of the one after the other
(41_encode.md R120, 42_decode.md R140): whole groups pass through, so a table of the rest says everything. -/

namespace Sys2Proof.Machine

/-! Each function alone. -/

theorem encodedLength_false (n : Nat) : encodedLength n false = fullSymbols n := if_neg (by simp)

theorem encodedLength_of_whole {n : Nat} (h : n % 5 = 0) (ign : Bool) : encodedLength n ign = fullSymbols n :=
  if_neg fun dropped => dropped.2 h

theorem decodedLength_false (m : Nat) : decodedLength m false = fullBytes m := if_neg (by simp)

theorem decodedLength_of_whole {m : Nat} (h : m % 8 = 0) (ign : Bool) : decodedLength m ign = fullBytes m :=
  if_neg fun dropped => dropped.2 h

/-- A group of five bytes in front gives eight symbols more. -/
theorem encodedLength_add_groups (q r : Nat) (ign : Bool) : encodedLength (5 * q + r) ign = 8 * q + encodedLength r ign := by
  cases ign with
  | false =>
    rw [encodedLength_false, encodedLength_false, fullSymbols, fullSymbols, cdiv, cdiv]
    omega
  | true =>
    rw [encodedLength_true, encodedLength_true]
    omega

/-- A group of eight symbols in front gives five bytes more. -/
theorem decodedLength_add_groups (q r : Nat) (ign : Bool) : decodedLength (8 * q + r) ign = 5 * q + decodedLength r ign := by
  cases ign with
  | false =>
    rw [decodedLength_false, decodedLength_false, fullBytes, fullBytes, cdiv, cdiv]
    omega
  | true =>
    rw [decodedLength_true, decodedLength_true]
    omega

/-! One after the other. -/

theorem decodedLength_encodedLength (n : Nat) (a b : Bool) :
    decodedLength (encodedLength n a) b = 5 * (n / 5) + decodedLength (encodedLength (n % 5) a) b := by
  rw [← decodedLength_add_groups, ← encodedLength_add_groups, Nat.div_add_mod]

theorem encodedLength_decodedLength (m : Nat) (a b : Bool) :
    encodedLength (decodedLength m a) b = 8 * (m / 8) + encodedLength (decodedLength (m % 8) a) b := by
  rw [← encodedLength_add_groups, ← decodedLength_add_groups, Nat.div_add_mod]

/-- Whole groups of bytes come back as many. -/
theorem decodedLength_encodedLength_of_whole {n : Nat} (h : n % 5 = 0) (a b : Bool) :
    decodedLength (encodedLength n a) b = n := by
  have nothing : ∀ a b, decodedLength (encodedLength 0 a) b = 0 := by decide
  rw [decodedLength_encodedLength, h, nothing, Nat.add_zero, Nat.mul_div_cancel' (Nat.dvd_of_mod_eq_zero h)]

/-- Where a partial symbol is left, one byte more comes back, and each flag takes one away (43_roundtrip.md R165, the
table's lengths). -/
theorem decodedLength_encodedLength_of_partial {n : Nat} (h : n % 5 ≠ 0) (a b : Bool) :
    decodedLength (encodedLength n a) b + a.toNat + b.toNat = n + 1 := by
  have rest : ∀ r < 5, r ≠ 0 → ∀ a b, decodedLength (encodedLength r a) b + a.toNat + b.toNat = r + 1 := by decide
  have := rest _ (Nat.mod_lt _ (by decide)) h a b
  rw [decodedLength_encodedLength]
  omega

/-- The table of R166: the symbols that decoding and encoding put in front. -/
theorem fullSymbols_fullBytes (m : Nat) :
    fullSymbols (fullBytes m) = [0, 1, 2, 1, 1, 2, 1, 1].getD (m % 8) 0 + m := by
  have rest : ∀ r < 8, encodedLength (decodedLength r false) false = [0, 1, 2, 1, 1, 2, 1, 1].getD r 0 + r := by decide
  rw [← decodedLength_false, ← encodedLength_false, encodedLength_decodedLength, rest _ (Nat.mod_lt _ (by decide))]
  omega

/-- The table of R167: what decoding with flag `a` and encoding with flag `b` add to the length, by its remainder modulo 8. -/
def reencodingDelta (a b : Bool) : List Int :=
  match a, b with
  | false, false => [0, 1, 2, 1, 1, 2, 1, 1]
  | false, true => [0, 0, 1, 0, 0, 1, 0, 1]
  | true, false => [0, -1, 0, -1, 0, 0, -1, 0]
  | true, true => [0, -1, -1, -2, -1, -1, -2, -1]

theorem encodedLength_decodedLength_eq_add_delta (m : Nat) (a b : Bool) :
    (encodedLength (decodedLength m a) b : Int) = m + (reencodingDelta a b).getD (m % 8) 0 := by
  have rest : ∀ r < 8, ∀ a b, (encodedLength (decodedLength r a) b : Int) = r + (reencodingDelta a b).getD r 0 := by decide
  rw [encodedLength_decodedLength, Nat.cast_add, rest _ (Nat.mod_lt _ (by decide))]
  omega

end Sys2Proof.Machine
end

section
/-! CERTIFICATE. The number view and the length laws (43_roundtrip.md R160 to R163). -/

namespace Sys2Proof.Machine

/-- Settles O9: the flag leaves the whole symbols, and without it a partial one comes on top. -/
theorem encodeLengthLaw : Obligations.EncodeLengthLaw := by
  intro b
  simp only [length_encodeBytes]
  refine ⟨?formula, fun hpartial => ?oneLess, fun whole => ?equal⟩
  case formula => rw [encodedLength_false, fullSymbols, Nat.mul_comm]
  case oneLess => rw [encodedLength_true, encodedLength_false_of_partial hpartial]
  case equal => rw [encodedLength_of_whole whole, encodedLength_of_whole whole]

/-- Settles O10: valid codes have indices, and the length looks at nothing but their number. -/
theorem decodeLengthLaw : Obligations.DecodeLengthLaw := by
  intro s valid
  obtain ⟨d, hd⟩ := exists_symbolsToIndices valid
  refine ⟨_, _, decodeSymbols_of_indices hd false, decodeSymbols_of_indices hd true, ?_⟩
  simp only [length_digits]
  refine ⟨decodedLength_false _, fun hpartial => ?oneLess, fun whole => ?equal⟩
  case oneLess => rw [decodedLength_true, decodedLength_false_of_partial hpartial]
  case equal => rw [decodedLength_of_whole whole, decodedLength_of_whole whole]

/-- Settles O11: as many low digits as the flag leaves are those of the value reduced to their width. -/
theorem encodeIsTheLowDigitsOfTheValue : Obligations.EncodeIsTheLowDigitsOfTheValue := by
  refine fun b ign => ⟨?digits, fun hpartial => ?reduced⟩
  case digits => rw [length_encodeBytes, encodeBytes_eq_map_digits]
  case reduced =>
    have length : encodedLength b.length true = cdiv (8 * b.length) 5 - 1 := if_pos ⟨rfl, hpartial⟩
    have modulus (L : Nat) : 32 ^ L = 2 ^ (5 * L) := (Nat.pow_mul 2 5 L).symm
    rw [encodeBytes_eq_map_digits, length, modulus, digits_mod]

/-- Settles O12: the number of bytes that `digits` gives is their length. -/
theorem decodeIsTheLowBytesOfTheValue : Obligations.DecodeIsTheLowBytesOfTheValue :=
  fun _ _ ign hd => ⟨_, decodeSymbols_of_indices hd ign, by rw [length_digits]⟩

end Sys2Proof.Machine
end

section
/-! SUPPORT. Digits of a sequence's value that are more or fewer than its elements, and the value cut within its first
element (00_scope.md R9). -/

namespace Sys2Proof.Machine

variable {w : Nat}

/-- More digits than elements are zeros in front. -/
theorem digits_bigEndian_add (d : List (BitVec w)) (k : Nat) :
    digits (bigEndian d) w (k + d.length) = List.replicate k 0#w ++ d := by
  induction k with
  | zero => simp [digits_bigEndian]
  | succ k ih =>
    have room : bigEndian d < 2 ^ (w * (k + d.length)) :=
      (bigEndian_lt d).trans_le (Nat.pow_le_pow_right (by decide) (Nat.mul_le_mul_left w (Nat.le_add_left ..)))
    rw [Nat.succ_add, digits_succ, ih, Nat.shiftRight_eq_div_pow, Nat.div_eq_of_lt room, List.replicate_succ, List.cons_append]

/-- One digit fewer leaves the first element out. -/
theorem digits_bigEndian_cons (x : BitVec w) (d : List (BitVec w)) : digits (bigEndian (x :: d)) w d.length = d := by
  have tail := digits_tail (bigEndian (x :: d)) w (x :: d).length
  rw [digits_bigEndian] at tail
  exact tail.symm

/-- Reduced to `p` bits of its first element, a sequence's value is that of the sequence with this element masked. -/
theorem bigEndian_cons_mod (x : BitVec w) (d : List (BitVec w)) {p : Nat} (hp : p ≤ w) :
    bigEndian (x :: d) % 2 ^ (w * d.length + p) = bigEndian ((x &&& BitVec.ofNat w (2 ^ p - 1)) :: d) := by
  have mask : (x &&& BitVec.ofNat w (2 ^ p - 1)).toNat = x.toNat % 2 ^ p := by
    have fits : 2 ^ p - 1 < 2 ^ w :=
      (Nat.sub_lt (Nat.two_pow_pos p) one_pos).trans_le (Nat.pow_le_pow_right (by decide) hp)
    rw [BitVec.toNat_and, BitVec.toNat_ofNat, Nat.mod_eq_of_lt fits, Nat.and_two_pow_sub_one_eq_mod]
  have high : bigEndian (x :: d) / 2 ^ (w * d.length) = x.toNat := by
    rw [← Nat.shiftRight_eq_div_pow]
    exact bigEndian_cons_shiftRight x d 0
  have low : bigEndian (x :: d) % 2 ^ (w * d.length) = bigEndian d := by
    rw [bigEndian, Nat.mul_comm, Nat.mul_add_mod, Nat.mod_eq_of_lt (bigEndian_lt d)]
  rw [Nat.pow_add, Nat.mod_mul, high, low, bigEndian, mask, Nat.add_comm, Nat.mul_comm]

end Sys2Proof.Machine
end

section
/-! CERTIFICATE. Decode after Encode (43_roundtrip.md R164, R165). -/

namespace Sys2Proof.Machine

theorem symbolsToIndices_encodeBytes (b : List Byte) (ign : Bool) :
    symbolsToIndices (encodeBytes b ign) = some (digits (val8 b) 5 (encodedLength b.length ign)) := by
  rw [symbolsToIndices_eq_some_iff, encodeBytes_eq_map_digits]

/-- Decode after Encode gives the low bytes of what the symbols keep of the value. -/
theorem decodeSymbols_encodeBytes (x : List Byte) (a b : Bool) :
    decodeSymbols (encodeBytes x a) b = some (digits (val8 x % 2 ^ (5 * encodedLength x.length a)) 8
      (decodedLength (encodedLength x.length a) b)) := by
  rw [decodeSymbols_of_indices (symbolsToIndices_encodeBytes x a), val5, bigEndian_digits, length_encodeBytes]

/-- The full output of Encode keeps the whole value. -/
theorem decodeSymbols_encodeBytes_of_full {x : List Byte} {a : Bool} (full : encodedLength x.length a = fullSymbols x.length)
    (b : Bool) :
    decodeSymbols (encodeBytes x a) b = some (digits (val8 x) 8 (decodedLength (encodedLength x.length a) b)) := by
  have kept : val8 x % 2 ^ (5 * encodedLength x.length a) = val8 x := by
    rw [full, ← bigEndian_digits, ← fullIndices, ← val5, val5_fullIndices]
  rw [decodeSymbols_encodeBytes, kept]

theorem decodeSymbols_encodeBytes_of_whole {x : List Byte} (whole : x.length % 5 = 0) (a b : Bool) :
    decodeSymbols (encodeBytes x a) b = some x := by
  rw [decodeSymbols_encodeBytes_of_full (encodedLength_of_whole whole a), decodedLength_encodedLength_of_whole whole, val8,
    digits_bigEndian]

/-- Settles O18: all of the value is kept, and the flag of Decode drops the byte that the partial symbol adds, if there is
one. -/
theorem decodeIgnInvertsEncode : Obligations.DecodeIgnInvertsEncode := by
  intro x
  by_cases whole : x.length % 5 = 0
  · exact decodeSymbols_encodeBytes_of_whole whole false true
  · have length : decodedLength (encodedLength x.length false) true = x.length := by
      simpa using decodedLength_encodedLength_of_partial whole false true
    rw [decodeSymbols_encodeBytes_of_full (encodedLength_false _), length, val8, digits_bigEndian]

/-- Without its flag Decode gives a zero byte, which the partial symbol adds, and then the bytes. -/
theorem decodeSymbols_false_encodeBytes_false {x : List Byte} (hpartial : x.length % 5 ≠ 0) :
    decodeSymbols (encodeBytes x false) false = some (0x00#8 :: x) := by
  have length : decodedLength (encodedLength x.length false) false = 1 + x.length := by
    simpa [Nat.add_comm] using decodedLength_encodedLength_of_partial hpartial false false
  rw [decodeSymbols_encodeBytes_of_full (encodedLength_false _), length, val8, digits_bigEndian_add]
  rfl

/-- The whole symbols keep the value with the top `8n mod 5` bits of its first byte cleared. -/
theorem decodeSymbols_encodeBytes_true (h : Byte) (tl : List Byte) (b : Bool) :
    decodeSymbols (encodeBytes (h :: tl) true) b =
      some (digits (val8 ((h &&& BitVec.ofNat 8 (2 ^ (8 - 8 * (tl.length + 1) % 5) - 1)) :: tl)) 8
        (decodedLength (encodedLength (tl.length + 1) true) b)) := by
  have kept : 5 * encodedLength (tl.length + 1) true = 8 * tl.length + (8 - 8 * (tl.length + 1) % 5) := by
    rw [encodedLength_true]
    omega
  rw [decodeSymbols_encodeBytes, List.length_cons, kept, val8, bigEndian_cons_mod h tl (Nat.sub_le ..), val8]

/-- Settles O19: the two lengths tell how many low bytes of the kept value come back. -/
theorem decodeAfterEncodeEveryFlag : Obligations.DecodeAfterEncodeEveryFlag := by
  refine ⟨fun x a b whole => decodeSymbols_encodeBytes_of_whole whole a b, fun h tl m rows => ?_⟩
  have hpartial : (tl.length + 1) % 5 ≠ 0 := by omega
  have mask : m = BitVec.ofNat 8 (2 ^ (8 - 8 * (tl.length + 1) % 5) - 1) := by
    rw [Nat.mul_mod]
    obtain ⟨rest, rfl⟩ | ⟨rest, rfl⟩ | ⟨rest, rfl⟩ | ⟨rest, rfl⟩ := rows <;> rw [rest] <;> rfl
  have length (b : Bool) : decodedLength (encodedLength (tl.length + 1) true) b + b.toNat = tl.length + 1 := by
    have := decodedLength_encodedLength_of_partial hpartial true b
    rw [Bool.toNat_true] at this
    omega
  refine ⟨decodeSymbols_false_encodeBytes_false hpartial, decodeIgnInvertsEncode _, ?cleared, ?withoutFirst⟩
  case cleared =>
    have all := length false
    rw [Bool.toNat_false, Nat.add_zero] at all
    rw [decodeSymbols_encodeBytes_true, ← mask, all]
    exact congrArg some (digits_bigEndian ((h &&& m) :: tl))
  case withoutFirst =>
    have fewer := Nat.succ.inj (length true)
    rw [decodeSymbols_encodeBytes_true, ← mask, fewer, val8, digits_bigEndian_cons]

end Sys2Proof.Machine
end

section
/-! CERTIFICATE. Encode after Decode (43_roundtrip.md R166 to R168). -/

namespace Sys2Proof.Machine

/-- Encode of the full output of Decode gives low digits of the value of the indices. -/
theorem encodeBytes_fullOutput (d : List Index) (ign : Bool) :
    encodeBytes (fullOutput d) ign = (digits (val5 d) 5 (encodedLength (fullBytes d.length) ign)).map symRom := by
  rw [encodeBytes_eq_map_digits, val8_fullOutput, fullOutput, length_digits]

/-- Settles O20: both default flags keep the value, so the symbols are its digits with '0' for each one more than before. -/
theorem encodeAfterDecodeDefault : Obligations.EncodeAfterDecodeDefault := by
  intro s valid k
  have length : fullSymbols (fullBytes s.length) = k + s.length := fullSymbols_fullBytes s.length
  obtain ⟨d, hd⟩ := exists_symbolsToIndices valid
  have indices := length_symbolsToIndices hd
  refine ⟨length.symm, fullOutput d, ?decode, ?encode⟩
  case decode => rw [decodeSymbols_of_indices hd, decodedLength_false, fullOutput, indices]
  case encode =>
    rw [encodeBytes_fullOutput, encodedLength_false, indices, length, ← indices, val5, digits_bigEndian_add, List.map_append,
      List.map_replicate, symbolsToIndices_eq_some_iff.1 hd]
    rfl

/-- Whole groups of symbols come back from their bytes, whatever the flag. -/
theorem encodeBytes_fullOutput_of_whole {d : List Index} (whole : d.length % 8 = 0) (ign : Bool) :
    encodeBytes (fullOutput d) ign = d.map symRom := by
  have bytes : fullBytes d.length % 5 = 0 := by
    unfold fullBytes cdiv
    omega
  have length : fullSymbols (fullBytes d.length) = d.length := by
    rw [fullSymbols_fullBytes, whole]
    exact Nat.zero_add _
  rw [encodeBytes_fullOutput, encodedLength_of_whole bytes, length, val5, digits_bigEndian]

/-- Settles O21: both functions give low digits of a value, so only their lengths are left to say, and these follow the
table. -/
theorem encodeAfterDecodeEveryFlag : Obligations.EncodeAfterDecodeEveryFlag := by
  intro s d a b hd delta
  have table : delta = reencodingDelta a b := by cases a <;> cases b <;> rfl
  have modulus (L : Nat) : 256 ^ L = 2 ^ (8 * L) := (Nat.pow_mul 2 8 L).symm
  refine ⟨_, decodeSymbols_of_indices hd a, ?length, (encodeIsTheLowDigitsOfTheValue _ _).1, ?value, fun whole => ?identity⟩
  case length => rw [length_encodeBytes, length_digits, table, encodedLength_decodedLength_eq_add_delta]
  case value => rw [length_digits, val8, bigEndian_digits, modulus]
  case identity =>
    have indices := length_symbolsToIndices hd
    rw [decodedLength_of_whole whole, ← indices, ← fullOutput, encodeBytes_fullOutput_of_whole (indices ▸ whole),
      symbolsToIndices_eq_some_iff.1 hd]

/-- Settles O22: the eight symbols come back as every multiple of eight does; the five are run. -/
theorem workedRoundTrips : Obligations.WorkedRoundTrips := by
  refine ⟨fun a b => ?eight, by decide, by decide, by decide, by decide⟩
  case eight =>
    obtain ⟨d, hd⟩ := exists_symbolsToIndices (cs := [0x73, 0x72, 0x71, 0x70, 0x6E, 0x6D, 0x6B, 0x6A]) (by decide)
    obtain ⟨y, decoded, -, -, -, identity⟩ := encodeAfterDecodeEveryFlag _ d a b hd
    rw [decoded, Option.map_some, identity rfl]

end Sys2Proof.Machine
end

section
/-! SUPPORT. What each host action answers, one equation per case (30_encoding.md R75; 44_host_interface.md R180, R181, R184 to
R188): a branch of the action and its condition. -/

namespace Sys2Proof.Machine

variable {s : State}

/-! The registers. -/

theorem regWrite_cmd_of_idle (idle : s.busy = false) (w : Word) : regWrite 0 w s = .done (s.startCommand w) := by
  rw [regWrite, if_neg (by simp [idle])]

theorem regWrite_cmd_of_busy (busy : s.busy = true) (w : Word) : regWrite 0 w s = .done s := by
  rw [regWrite, if_pos busy]

theorem regWrite_inLen_of_idle (idle : s.busy = false) (v : Word) : regWrite 1 v s = .done { s with inLen := v } := by
  rw [regWrite, if_neg (by simp [idle])]

theorem regWrite_inLen_of_busy (busy : s.busy = true) (v : Word) : regWrite 1 v s = .done s := by
  rw [regWrite, if_pos busy]

theorem regWrite_of_read_only {n : Nat} (low : 2 ≤ n) (high : n ≤ 7) (v : Word) : regWrite n v s = .done s := by
  interval_cases n <;> rfl

theorem regRead_of_reserved {n : Nat} (low : 4 ≤ n) (high : n ≤ 7) : regRead n s = .value 0#32 s := by
  interval_cases n <;> rfl

/-- CMD reads as IGN and OP, said as a number. -/
theorem State.toNat_cmdWord (s : State) : s.cmdWord.toNat = 4 * s.cmdIgn.toNat + s.cmdOp.toNat := by
  unfold State.cmdWord
  generalize s.cmdIgn = ign, s.cmdOp = op
  revert ign op
  decide

/-- STATUS reads as its four bits, said as a number. -/
theorem State.toNat_statusWord (s : State) :
    s.statusWord.toNat = 8 * s.errLen.toNat + 4 * s.errSym.toNat + 2 * s.done.toNat + s.busy.toNat := by
  unfold State.statusWord
  generalize s.errLen = errLen, s.errSym = errSym, s.done = done, s.busy = busy
  revert errLen errSym done busy
  decide

/-! The cells. -/

theorem State.readCell_of_known {m : Memory} {i : Nat} {b : Byte} (h : Memory.read m i = some b) :
    s.readCell m i = (b, s) := by
  rw [State.readCell, h]

theorem State.readCell_of_unknown {m : Memory} {i : Nat} (h : Memory.read m i = none) : s.readCell m i = s.draw := by
  rw [State.readCell, h]

section In

variable {i : Nat}

theorem inWrite_of_idle (hi : i < s.params.inDepth) (idle : s.busy = false) (v : Byte) :
    inWrite i v s = .done { s with inBuf := Memory.write s.inBuf i v } := by
  rw [inWrite, if_pos hi, if_neg (by simp [idle])]

theorem inWrite_of_busy (hi : i < s.params.inDepth) (busy : s.busy = true) (v : Byte) : inWrite i v s = .done s := by
  rw [inWrite, if_pos hi, if_pos busy]

theorem inWrite_of_inDepth_le (hi : s.params.inDepth ≤ i) (v : Byte) : inWrite i v s = .refused .noSuchCell :=
  if_neg hi.not_gt

theorem inRead_of_known (hi : i < s.params.inDepth) {b : Byte} (h : Memory.read s.inBuf i = some b) :
    inRead i s = .value (b.setWidth 32) s := by
  rw [inRead, if_pos hi, State.readCell_of_known h]

theorem inRead_of_unknown (hi : i < s.params.inDepth) (h : Memory.read s.inBuf i = none) :
    inRead i s = .value ((Config.any8 s.draws).setWidth 32) { s with draws := s.draws + 1 } := by
  rw [inRead, if_pos hi, State.readCell_of_unknown h, State.draw]

theorem inRead_of_inDepth_le (hi : s.params.inDepth ≤ i) : inRead i s = .refused .noSuchCell :=
  if_neg hi.not_gt

end In

section Out

variable {j : Nat}

theorem outRead_of_busy (hj : j < s.params.outDepth) (busy : s.busy = true) :
    outRead j s = .value ((Config.any8 s.draws).setWidth 32) { s with draws := s.draws + 1 } := by
  rw [outRead, if_pos hj, if_pos busy, State.draw]

theorem outRead_of_known (hj : j < s.params.outDepth) (idle : s.busy = false) {b : Byte}
    (h : Memory.read s.outBuf j = some b) : outRead j s = .value (b.setWidth 32) s := by
  rw [outRead, if_pos hj, if_neg (by simp [idle]), State.readCell_of_known h]

theorem outRead_of_unknown (hj : j < s.params.outDepth) (idle : s.busy = false) (h : Memory.read s.outBuf j = none) :
    outRead j s = .value ((Config.any8 s.draws).setWidth 32) { s with draws := s.draws + 1 } := by
  rw [outRead, if_pos hj, if_neg (by simp [idle]), State.readCell_of_unknown h, State.draw]

theorem outRead_of_outDepth_le (hj : s.params.outDepth ≤ j) : outRead j s = .refused .noSuchCell :=
  if_neg hj.not_gt

theorem outWrite_of_lt (hj : j < s.params.outDepth) (v : Byte) : outWrite j v s = .done s :=
  if_pos hj

theorem outWrite_of_outDepth_le (hj : s.params.outDepth ≤ j) (v : Byte) : outWrite j v s = .refused .noSuchCell :=
  if_neg hj.not_gt

end Out

end Sys2Proof.Machine
end

section
/-! CERTIFICATE. The host's actions on the registers and the cells (44_host_interface.md R180, R181, R184 to R188). -/

namespace Sys2Proof.Machine

/-- Settles O34: the accepted write is the start of the command. -/
theorem cmdWriteStartsACommand : Obligations.CmdWriteStartsACommand :=
  fun w _ idle => regWrite_cmd_of_idle idle w

/-- Settles O35: each of the three writes is ignored while busy. -/
theorem inputsAreLockedWhileBusy : Obligations.InputsAreLockedWhileBusy :=
  fun _ busy => ⟨regWrite_cmd_of_busy busy, regWrite_inLen_of_busy busy, fun _ v hi => inWrite_of_busy hi busy v⟩

/-- Settles O36: IN_LEN is written while idle, and the slots from 2 on are read-only. -/
theorem otherRegisterWrites : Obligations.OtherRegisterWrites :=
  ⟨fun v _ idle => regWrite_inLen_of_idle idle v, fun _ v _ low high => regWrite_of_read_only low high v⟩

/-- Settles O37: CMD and STATUS as numbers are their bits, each at its weight. -/
theorem registerReads : Obligations.RegisterReads :=
  fun s => ⟨⟨_, rfl, s.toNat_cmdWord⟩, rfl, ⟨_, rfl, s.toNat_statusWord⟩, rfl, fun _ low high => regRead_of_reserved low high⟩

/-- Settles O38: the cell written reads back by the laws of a buffer. -/
theorem inputBufferAccesses : Obligations.InputBufferAccesses := by
  refine fun s i v => ⟨fun hi idle => ?stored, fun hi busy => inWrite_of_busy hi busy v, fun hi b => inRead_of_known hi,
    inRead_of_unknown, fun hi => ⟨inWrite_of_inDepth_le hi v, inRead_of_inDepth_le hi⟩⟩
  case stored =>
    exact ⟨_, inWrite_of_idle hi idle v, Memory.read_write_self s.inBuf i v, fun _ => Memory.read_write_of_ne s.inBuf v⟩

/-- Settles O39: while busy a read of OUT is a draw; while idle the cell decides. -/
theorem outputBufferReads : Obligations.OutputBufferReads :=
  fun _ _ => ⟨outRead_of_busy, fun hj idle _ => outRead_of_known hj idle, outRead_of_unknown, outRead_of_outDepth_le⟩

/-- Settles O40: a write to OUT looks only at the depth. -/
theorem outputBufferWritesAreIgnored : Obligations.OutputBufferWritesAreIgnored :=
  fun _ v _ => ⟨fun hj => outWrite_of_lt hj v, fun hj => outWrite_of_outDepth_le hj v⟩

/-- Settles O53: of the effects a host action can have, only Reset writes OUT, and only Reset and a command's start write
OUT_LEN. -/
theorem hostNeverWritesOut : Obligations.HostNeverWritesOut := by
  intro a s t h hne
  rcases hostAction_cases h with rfl | rfl | ⟨w, ha, idle, rfl⟩ | ⟨v, -, -, rfl⟩ | ⟨i, v, -, -, -, rfl⟩ | ⟨ha, -⟩
  · exact ⟨rfl, .inl rfl⟩
  · exact ⟨rfl, .inl rfl⟩
  · exact ⟨rfl, .inr ⟨idle, rfl, w, ha⟩⟩
  · exact ⟨rfl, .inl rfl⟩
  · exact ⟨rfl, .inl rfl⟩
  · exact absurd ha hne

end Sys2Proof.Machine
end

section
/-! SUPPORT. What a completion leaves of the state, whichever of its branches it takes (44_host_interface.md R182, R183,
R190). -/

namespace Sys2Proof.Machine

/-! What it keeps and how it ends. -/

theorem State.keepsInputs.trans {s t u : State} (first : s.keepsInputs t) (second : t.keepsInputs u) : s.keepsInputs u := by
  obtain ⟨op, ign, inLen, inBuf⟩ := first
  obtain ⟨op', ign', inLen', inBuf'⟩ := second
  exact ⟨op'.trans op, ign'.trans ign, inLen'.trans inLen, inBuf'.trans inBuf⟩

/-- The command being carried out is held in CMD. -/
theorem State.command_of_keepsInputs {s t : State} (h : s.keepsInputs t) : t.command = s.command := by
  obtain ⟨op, ign, -, -⟩ := h
  rw [State.command, State.command, State.cmdWord, State.cmdWord, op, ign]

theorem State.keepsInputs_complete (f : List Byte → Option (List Byte)) (s : State) : s.keepsInputs (s.complete f) := by
  rcases State.complete_cases f s with ⟨-, h⟩ | ⟨-, -, h⟩ | ⟨r, -, -, h⟩
  · exact h ▸ ⟨rfl, rfl, rfl, rfl⟩
  · exact h ▸ ⟨rfl, rfl, rfl, rfl⟩
  · exact h ▸ s.afterInput.keepsInputs_endWithResult r

theorem State.keepsHost_complete (f : List Byte → Option (List Byte)) (s : State) : s.keepsHost (s.complete f) := by
  rcases State.complete_cases f s with ⟨-, h⟩ | ⟨-, -, h⟩ | ⟨r, -, -, h⟩
  · exact h ▸ ⟨rfl, rfl, rfl, rfl, rfl, rfl⟩
  · exact h ▸ ⟨rfl, rfl, rfl, rfl, rfl, rfl⟩
  · exact h ▸ s.afterInput.keepsHost_endWithResult r

/-- A completion ends the command, with at most one of the two errors. -/
theorem State.status_complete (f : List Byte → Option (List Byte)) (s : State) :
    (s.complete f).busy = false ∧ (s.complete f).done = true ∧
      ¬ ((s.complete f).errSym = true ∧ (s.complete f).errLen = true) := by
  rcases State.complete_cases f s with ⟨-, h⟩ | ⟨-, -, h⟩ | ⟨r, -, -, h⟩ <;> rw [h]
  · exact ⟨rfl, rfl, by simp⟩
  · exact ⟨rfl, rfl, by simp⟩
  · exact ⟨rfl, rfl, by simp⟩

/-- A completion with an error has no result: OUT is as before and OUT_LEN is 0. -/
theorem State.complete_no_result_of_error (f : List Byte → Option (List Byte)) (s : State)
    (error : (s.complete f).errSym = true ∨ (s.complete f).errLen = true) :
    (s.complete f).outBuf = s.outBuf ∧ (s.complete f).outLen = 0 := by
  rcases State.complete_cases f s with ⟨-, h⟩ | ⟨-, -, h⟩ | ⟨r, -, -, h⟩ <;> rw [h] at error ⊢
  · exact ⟨rfl, rfl⟩
  · exact ⟨rfl, rfl⟩
  · simp at error

/-- A result of an input that `State.resultFits` admits has a length that OUT_LEN holds. -/
theorem length_commandResult_lt {i : Instr} {s : State} {r : List Byte} (fits : s.resultFits)
    (result : commandResult i s.input = some r) : r.length < 2 ^ 32 :=
  (length_commandResult_le result).trans_lt (fullSymbols_lt_two_pow (s.length_input.trans_le fits))

/-- The OUT cells from OUT_LEN on are as before, where OUT_LEN holds the length of the result: a completion writes only the
cells below that length. -/
theorem State.read_complete_of_outLen_le {i : Instr} {s : State} (fits : s.len ≤ s.params.inDepth → s.resultFits) {j : Nat}
    (hj : (s.complete (commandResult i)).outLen.toNat ≤ j) :
    Memory.read (s.complete (commandResult i)).outBuf j = Memory.read s.outBuf j := by
  rcases State.complete_cases (commandResult i) s with ⟨-, h⟩ | ⟨-, -, h⟩ | ⟨r, within, result, h⟩ <;> rw [h] at hj ⊢
  · rfl
  · rfl
  · have short : r.length < 2 ^ 32 := length_commandResult_lt (fits within) result
    rw [endWithResult_outLen, setOutLen_of_lt short, BitVec.toNat_ofNat, Nat.mod_eq_of_lt short] at hj
    exact s.afterInput.read_endWithResult_of_length_le r hj

/-! The cells that a completion writes. -/

/-- The cells that a completion writes to OUT, from cell 0 on: its result, if it has one. -/
def State.writtenCells (f : List Byte → Option (List Byte)) (s : State) : List Byte :=
  if s.len ≤ s.params.inDepth then (f s.input).getD [] else []

theorem State.outBuf_complete (f : List Byte → Option (List Byte)) (s : State) :
    (s.complete f).outBuf = Memory.writeFrom s.outBuf 0 (s.writtenCells f) := by
  rcases State.complete_cases f s with ⟨long, h⟩ | ⟨fits, hf, h⟩ | ⟨r, fits, hf, h⟩ <;> rw [h, writtenCells]
  · rw [if_neg long.not_ge]; rfl
  · rw [if_pos fits, hf]; rfl
  · rw [if_pos fits, hf, endWithResult_outBuf]; rfl

/-- A second run of the same writes changes no cell. -/
theorem Memory.read_writeFrom_writeFrom (m : Memory) (a : Nat) (r : List Byte) (j : Nat) :
    Memory.read (Memory.writeFrom (Memory.writeFrom m a r) a r) j = Memory.read (Memory.writeFrom m a r) j := by
  by_cases written : a ≤ j ∧ j < a + r.length
  · rw [Memory.read_writeFrom, Memory.read_writeFrom, if_pos written, if_pos written]
  · rw [Memory.read_writeFrom, if_neg written]

/-- Two completions on one input that is known, and whose result OUT_LEN can count, end with the same STATUS and OUT_LEN and
write the same cells to OUT. -/
theorem State.complete_congr_of_known {i : Instr} {s t : State} (params : s.params = t.params) (inLen : s.inLen = t.inLen)
    (inBuf : s.inBuf = t.inBuf) (known : s.len ≤ s.params.inDepth → s.inputKnown ∧ s.resultFits) :
    (s.complete (commandResult i)).statusWord = (t.complete (commandResult i)).statusWord ∧
      (s.complete (commandResult i)).outLen = (t.complete (commandResult i)).outLen ∧
      s.writtenCells (commandResult i) = t.writtenCells (commandResult i) := by
  have len : s.len = t.len := congrArg BitVec.toNat inLen
  have cells (k : Nat) (_ : k < s.len) : Memory.read s.inBuf k = Memory.read t.inBuf k := by rw [inBuf]
  obtain ⟨status, outLen, -⟩ := State.sameResult_complete (i := i) params len (fun _ => cells) (.inr known)
  refine ⟨status, outLen, ?_⟩
  rw [writtenCells, writtenCells, ← params, ← len]
  split
  · next fits => rw [State.input_congr len cells (.inr (known fits).1)]
  · rfl

end Sys2Proof.Machine
end

section
/-! CERTIFICATE. The completion of every command: its length error and its frame (44_host_interface.md R182, R183, R190;
60_exceptions.md R202, R204). -/

namespace Sys2Proof.Machine

/-- Settles O32: the length check is the completion's first branch, which reads no cell. -/
theorem lengthErrorEndsEveryCommand : Obligations.LengthErrorEndsEveryCommand := by
  intro i s long
  rw [exec_eq_next_complete, State.complete_of_lengthError long]
  rfl

/-- Settles O33: every command is a completion, and each part of the frame is one of its laws. -/
theorem commandLeavesTheRestUnchanged : Obligations.CommandLeavesTheRestUnchanged := by
  intro i s
  obtain ⟨idle, done, oneError⟩ := s.status_complete (commandResult i)
  exact ⟨_, exec_eq_next_complete i s, s.keepsInputs_complete _, s.keepsHost_complete _, idle, done, oneError,
    s.complete_no_result_of_error _, fun fits _ => State.read_complete_of_outLen_le fun _ => fits⟩

end Sys2Proof.Machine
end

section
/-! SUPPORT. Whose turn a step is and what it then is, and what the host's turns leave while a command runs
(44_host_interface.md R181, R189). -/

namespace Sys2Proof.Machine

section Turn

variable {s : State}

theorem State.nextTurn_of_cons {a : Agent} {rest : List Agent} (h : s.schedule = a :: rest) : s.nextTurn = (a, rest) := by
  rw [State.nextTurn, h]

/-- A busy engine moves when its turn comes, and when the turns are used up. -/
theorem State.nextTurn_of_busy (busy : s.busy = true) (h : s.schedule.head? ≠ some .host) : s.nextTurn.1 = .engine := by
  unfold State.nextTurn
  split
  · next a rest hs =>
    cases a with
    | host => simp [hs] at h
    | engine => rfl
  · exact if_pos busy

theorem step_of_busy_engine (engine : s.nextTurn.1 = .engine) (busy : s.busy = true) :
    step s = exec s.command s.takeTurn := by
  rw [step, engine]
  exact if_pos busy

theorem step_of_idle_engine (engine : s.nextTurn.1 = .engine) (idle : s.busy = false) : step s = .next s.takeTurn := by
  rw [step, engine]
  exact if_neg (by simp [idle])

/-- The command that a CMD write starts is the one its word decodes to. -/
@[simp] theorem State.command_startCommand (s : State) (w : Word) : (s.startCommand w).command = decodeCmd w := by
  rw [State.command, State.cmdWord_startCommand, ← encodeCmd_decodeCmd, decodeCmd_encodeCmd]

theorem State.withFetchWord_toNat (s : State) (w : Word) : s.withFetchWord 32 w.toNat = s.withCommand w := by
  rw [State.withFetchWord, Nat.mod_eq_of_lt w.isLt, BitVec.ofNat_toNat, BitVec.setWidth_eq]

end Turn

/-- `t` is `s` after turns of the host that have not touched the block, and `rest` are the turns to come: beside these, only
the count of free values and the host's position, variables and halt may differ. -/
def State.hostMoves (s : State) (rest : List Agent) (t : State) : Prop :=
  ∃ d pc vs hlt, t = { s with draws := d, hostPc := pc, vars := vs, halted := hlt, schedule := rest }

theorem State.hostMoves.trans {s t u : State} {rest rest' : List Agent} (first : s.hostMoves rest t)
    (second : t.hostMoves rest' u) : s.hostMoves rest' u := by
  obtain ⟨_, _, _, _, rfl⟩ := first
  obtain ⟨_, _, _, _, rfl⟩ := second
  exact ⟨_, _, _, _, rfl⟩

/-- What such turns leave alone. -/
theorem State.hostMoves.keeps {s t : State} {rest : List Agent} (h : s.hostMoves rest t) :
    t.busy = s.busy ∧ t.params = s.params ∧ t.prog = s.prog ∧ t.schedule = rest ∧ s.keepsInputs t ∧ t.outBuf = s.outBuf ∧
      t.outLen = s.outLen ∧ t.statusWord = s.statusWord := by
  obtain ⟨_, _, _, _, rfl⟩ := h
  exact ⟨rfl, rfl, rfl, rfl, ⟨rfl, rfl, rfl, rfl⟩, rfl, rfl, rfl⟩

/-- While busy, a host action other than Reset moves at most the count of free values. -/
theorem hostAction_after_of_busy {a : HostAction} {s t : State} (busy : s.busy = true) (noReset : a ≠ .reset)
    (h : (hostAction a s).after = some t) : ∃ d, t = { s with draws := d } := by
  rcases hostAction_cases h with rfl | rfl | ⟨_, -, idle, -⟩ | ⟨_, -, idle, -⟩ | ⟨_, _, -, -, idle, -⟩ | ⟨isReset, -⟩
  · exact ⟨_, rfl⟩
  · exact ⟨_, rfl⟩
  · simp [busy] at idle
  · simp [busy] at idle
  · simp [busy] at idle
  · exact absurd isReset noReset

/-- The input lock, for a turn: while busy, the host's turn does not touch the block unless its statement is RST. -/
theorem hostMoves_of_step {s t : State} (busy : s.busy = true) (host : s.nextTurn.1 = .host)
    (noReset : s.hostNext ≠ some .rst) (h : step s = .next t) : s.hostMoves s.nextTurn.2 t := by
  rcases step_cases h with ⟨engine, -⟩ | ⟨engine, -⟩ | ⟨-, -, rfl⟩ | ⟨st, -, hst, run⟩
  · simp [host] at engine
  · simp [host] at engine
  · exact ⟨_, _, _, _, rfl⟩
  · rcases hostStmt_next run with ⟨a, u, vs, after, rfl, reset⟩ | ⟨pc, rfl⟩ | rfl
    · have notReset : a ≠ .reset := fun ha => noReset (reset ha ▸ hst)
      obtain ⟨d, rfl⟩ := hostAction_after_of_busy (s := s.takeTurn) busy notReset after
      exact ⟨_, _, _, _, rfl⟩
    · exact ⟨_, _, _, _, rfl⟩
    · exact ⟨_, _, _, _, rfl⟩

theorem State.hostNext_ne_rst {s : State} (h : neverResets s.prog = true) : s.hostNext ≠ some .rst := fun hrst => by
  simpa using List.all_eq_true.1 h _ (State.mem_prog_of_hostNext hrst)

/-- The turns of a host without RST, as many as the schedule has in front, do not touch a busy block. -/
theorem hostMoves_of_runSteps {n : Nat} {s t : State} {rest : List Agent} (busy : s.busy = true)
    (noReset : neverResets s.prog = true) (schedule : s.schedule = List.replicate n .host ++ rest)
    (h : runSteps n s = .next t) : s.hostMoves rest t := by
  induction n generalizing s with
  | zero =>
    obtain rfl : s = t := by simpa using h
    obtain rfl : s.schedule = rest := schedule
    exact ⟨_, _, _, _, rfl⟩
  | succ n ih =>
    obtain ⟨u, hstep, hrun⟩ := runSteps_succ.1 h
    have turn : s.nextTurn = (.host, List.replicate n .host ++ rest) := State.nextTurn_of_cons schedule
    have first := hostMoves_of_step busy (by rw [turn]) (State.hostNext_ne_rst noReset) hstep
    rw [turn] at first
    refine first.trans ?_
    obtain ⟨_, _, _, _, rfl⟩ := first
    exact ih busy noReset rfl hrun

end Sys2Proof.Machine
end

section
/-! CERTIFICATE. The turns of the engine and of the host while a command runs: what is run, that it completes, and that the
moment of its completion and an earlier run of it make no difference (44_host_interface.md R181, R182, R189, R190;
70_reset_and_hazards.md R226, R228). -/

namespace Sys2Proof.Machine

/-- Settles O5: the turn's equations; after a fetched word the turn taken is the one that the fetch has put in front. -/
theorem stepRunsTheCommandHeldInCmd : Obligations.StepRunsTheCommandHeldInCmd := by
  refine ⟨?busy, fun s => step_of_idle_engine, fun s w => ?fetched⟩
  case busy =>
    rintro s i engine busy rfl
    exact step_of_busy_engine engine busy
  case fetched =>
    calc step (s.withFetchWord 32 w.toNat)
        = step (s.withCommand w) := by rw [s.withFetchWord_toNat]
      _ = exec (s.startCommand w).command (s.startCommand w) := step_of_busy_engine rfl rfl
      _ = exec (decodeCmd w) (s.startCommand w) := by rw [s.command_startCommand]

/-- Settles O55: the turn does not touch the block. -/
theorem busyLastsUntilCompletionOrReset : Obligations.BusyLastsUntilCompletionOrReset := by
  intro s t busy host noReset h
  obtain ⟨sameBusy, -, -, -, kept⟩ := (hostMoves_of_step busy host noReset h).keeps
  exact ⟨sameBusy.trans busy, kept⟩

/-- A busy engine whose turn comes completes the command in one step. -/
theorem step_completes {s : State} (busy : s.busy = true) (turn : s.schedule.head? ≠ some .host) :
    step s = .next (s.takeTurn.complete (commandResult s.command)) := by
  rw [step_of_busy_engine (State.nextTurn_of_busy busy turn) busy, exec_eq_next_complete]

theorem runSteps_completes {s : State} (busy : s.busy = true) (turn : s.schedule.head? ≠ some .host) :
    ∃ t, runSteps 1 s = .next t ∧ t.busy = false ∧ t.done = true := by
  obtain ⟨idle, done, -⟩ := s.takeTurn.status_complete (commandResult s.command)
  exact ⟨_, runSteps_succ.2 ⟨_, step_completes busy turn, rfl⟩, idle, done⟩

/-- Settles O56, by induction on the schedule: the engine's first turn completes the command, and a turn of the host leaves
it started. -/
theorem startedCommandCompletes : Obligations.StartedCommandCompletes := by
  intro s busy wellFormed noReset
  induction hs : s.schedule generalizing s with
  | nil =>
    obtain ⟨t, run, ended⟩ := runSteps_completes busy (by simp [hs])
    exact ⟨1, t, Nat.le_add_left .., run, ended⟩
  | cons a rest ih =>
    cases a with
    | engine =>
      obtain ⟨t, run, ended⟩ := runSteps_completes busy (by simp [hs])
      exact ⟨1, t, Nat.le_add_left .., run, ended⟩
    | host =>
      have turn : s.nextTurn = (.host, rest) := State.nextTurn_of_cons hs
      obtain ⟨u, hstep⟩ := wellFormedProgramIsNeverRefused s wellFormed
      obtain ⟨sameBusy, params, prog, schedule, -⟩ :=
        (hostMoves_of_step busy (by rw [turn]) (State.hostNext_ne_rst noReset) hstep).keeps
      obtain ⟨k, t, hk, run, ended⟩ := ih u (sameBusy.trans busy) (params ▸ prog ▸ wellFormed) (prog ▸ noReset)
        (by rw [schedule, turn])
      exact ⟨k + 1, t, Nat.succ_le_succ hk, runSteps_succ.2 ⟨_, hstep, run⟩, ended⟩

/-- Settles O57: the host's turns leave the operands and OUT as they are, and the completion after them reads the same input
and writes the same cells. -/
theorem completionIsTheSameAfterAnyHostTurns : Obligations.CompletionIsTheSameAfterAnyHostTurns := by
  intro n s t rest busy noReset schedule turn known run
  obtain ⟨sameBusy, params, -, schedule', inputs, outBuf, -⟩ :=
    (hostMoves_of_runSteps busy noReset schedule run).keeps
  have completes : step t = .next (t.takeTurn.complete (commandResult s.command)) :=
    State.command_of_keepsInputs inputs ▸ step_completes (sameBusy.trans busy) (schedule' ▸ turn)
  refine ⟨_, _, completes, exec_eq_next_complete s.command s, ?_⟩
  have ⟨_, _, inLen, inBuf⟩ := inputs
  obtain ⟨status, outLen, cells⟩ :=
    State.complete_congr_of_known (i := s.command) (t := t.takeTurn) params.symm inLen.symm inBuf.symm known
  refine ⟨status.symm, outLen.symm, ?outBuf, inputs.trans (t.takeTurn.keepsInputs_complete _)⟩
  case outBuf => rw [State.outBuf_complete, State.outBuf_complete, cells, State.takeTurn_outBuf, outBuf]

/-- Settles O59: the second completion reads the operands of the first, and writes to OUT the cells that stand there. -/
theorem repeatedCommandGivesTheSameResult : Obligations.RepeatedCommandGivesTheSameResult := by
  intro i s t known run
  rw [exec_eq_next_complete] at run
  cases run
  obtain ⟨idle, -⟩ := s.status_complete (commandResult i)
  obtain ⟨-, -, inLen, inBuf⟩ := s.keepsInputs_complete (commandResult i)
  obtain ⟨params, -⟩ := s.keepsHost_complete (commandResult i)
  obtain ⟨status, outLen, cells⟩ := State.complete_congr_of_known (i := i)
    (t := (s.complete (commandResult i)).startCommand (encodeCmd i)) params.symm inLen.symm inBuf.symm known
  refine ⟨_, _, regWrite_cmd_of_idle idle (encodeCmd i), exec_eq_next_complete i _, ?command, status.symm, outLen.symm,
    fun j => ?outBuf⟩
  case command => rw [State.command_startCommand, decodeCmd_encodeCmd]
  case outBuf =>
    rw [State.outBuf_complete, ← cells, State.startCommand_outBuf, State.outBuf_complete, Memory.read_writeFrom_writeFrom]

end Sys2Proof.Machine
end

section
/-! CERTIFICATE. The error InvalidSymbol: which commands it ends, on which inputs, and in what state (60_exceptions.md R200 to
R202). -/

namespace Sys2Proof.Machine

/-- Only DECODE and SYM2IDX can be without a result, and they are exactly on an input with a code that is no symbol. -/
theorem commandResult_eq_none_iff {i : Instr} {x : List Byte} :
    commandResult i x = none ↔ (∃ ign, i = .decode ign ∨ i = .sym2idx ign) ∧ ∃ c ∈ x, isSymbol c = false := by
  cases i with
  | encode ign => simp [commandResult]
  | decode ign => simp [commandResult, decodeFailsExactlyOnAnInvalidCode x ign]
  | idx2sym ign => simp [commandResult]
  | sym2idx ign => simp [commandResult, symbolsToIndexBytes, symbolsToIndices_eq_none_iff]

theorem exec_of_invalidSymbol {i : Instr} {s : State} (fits : s.len ≤ s.params.inDepth)
    (noResult : commandResult i s.input = none) : exec i s = .next (s.afterInput.endInError .invalidSymbol) := by
  rw [exec_eq_next_complete, State.complete_of_invalidSymbol fits noResult]

/-- Settles O31: an invalid code leaves the command without a result, and the end in an error writes only STATUS and
OUT_LEN. -/
theorem invalidSymbolEndsTheCommandWithNoResult : Obligations.InvalidSymbolEndsTheCommandWithNoResult := by
  intro i s reader fits invalid
  have noResult : commandResult i s.input = none := commandResult_eq_none_iff.2 ⟨reader, invalid⟩
  exact ⟨s.afterInput.endInError .invalidSymbol, exec_of_invalidSymbol fits noResult, State.statusWord_invalidSymbol _,
    rfl, rfl, ⟨rfl, rfl, rfl, rfl⟩, ⟨rfl, rfl, rfl, rfl, rfl, rfl⟩⟩

end Sys2Proof.Machine
end

section
/-! CERTIFICATE. The action Reset: the block that it leaves (70_reset_and_hazards.md R220). -/

namespace Sys2Proof.Machine

theorem hostAction_reset (s : State) : hostAction .reset s = .done s.resetBlock := rfl

@[simp] theorem State.cmdWord_resetBlock (s : State) : s.resetBlock.cmdWord = 0#32 := by
  rw [State.cmdWord, State.resetBlock_cmdIgn, State.resetBlock_cmdOp]
  decide

/-- CMD, IN_LEN and IN after the action Reset are those of power-on, whatever the block was doing. -/
theorem State.keepsInputs_resetOf_resetBlock (p : Params) (s : State) : (State.resetOf p).keepsInputs s.resetBlock :=
  ⟨s.resetBlock_cmdOp, s.resetBlock_cmdIgn, s.resetBlock_inLen, s.resetBlock_inBuf⟩

/-- Settles O43: the action leaves `s.resetBlock`, whose fields do not depend on what `s` held, so no case of a running
command arises; an empty buffer has no known cell. -/
theorem resetClearsTheBlock : Obligations.ResetClearsTheBlock := by
  intro s
  refine ⟨s.resetBlock, hostAction_reset s, s.cmdWord_resetBlock, s.resetBlock_inLen, s.statusWord_resetBlock,
    s.resetBlock_outLen, s.resetBlock_busy, fun i => ?inUnknown, fun j => ?outUnknown,
    State.keepsInputs_resetOf_resetBlock s.params s, ?status, s.resetBlock_outLen, s.resetBlock_outBuf⟩
  case inUnknown => rw [State.resetBlock_inBuf, Memory.read_nil]
  case outUnknown => rw [State.resetBlock_outBuf, Memory.read_nil]
  case status => rw [State.statusWord_resetBlock, State.statusWord_resetOf]

end Sys2Proof.Machine
end

section
/-! CERTIFICATE. The frame of the action Reset: what is no part of the block stays (70_reset_and_hazards.md R220). -/

namespace Sys2Proof.Machine

/-- The host is no part of the block that Reset clears. -/
theorem State.keepsHost_resetBlock (s : State) : s.keepsHost s.resetBlock :=
  ⟨s.resetBlock_params, s.resetBlock_prog, s.resetBlock_hostPc, s.resetBlock_vars, s.resetBlock_halted,
    s.resetBlock_schedule⟩

/-- Settles O44: the action leaves `s.resetBlock`, which differs from `s` in the registers, the flags of STATUS and the buffers
only. -/
theorem resetLeavesTheHost : Obligations.ResetLeavesTheHost := fun s =>
  ⟨s.resetBlock, hostAction_reset s, s.keepsHost_resetBlock, s.resetBlock_draws⟩

end Sys2Proof.Machine
end
